-- ==== Sys2Proof/Word.lean ====
section
/-! DEFINITION. The word types of the CHIP-8 core (spec/00_scope.md R11 to R13): what the spec adds, shifts or masks is
a bit vector; a register index, a row count and a key code are bounded numbers. -/

namespace Sys2Proof

/-- A byte: a V register, a timer, a memory byte (R19, R26, R28). -/
abbrev Byte := BitVec 8

/-- A 16-bit value: an opcode, pc, I, a stack entry (R22, R23, R24, R49). -/
abbrev Word := BitVec 16

/-- The 12-bit address field `nnn` of an opcode (R52). -/
abbrev Addr12 := BitVec 12

/-- The index of one of V0 to VF (R19). -/
abbrev Reg := Fin 16

/-- A logical key code 0x0 to 0xF (R32). -/
abbrev Key := Fin 16

/-- The row count `n` of DXYN, 0 to 15 (R52). -/
abbrev Count := Fin 16

/-- VF, the register that some instructions also write as a flag (R20). -/
abbrev VF : Reg := 15

end Sys2Proof
end

