-- ==== Sys2Proof/Config.lean ====
section
/-! DEFINITION. What an implementation fixes and what the spec leaves free: the fixed sizes and the parameters of
spec/00_scope.md R9, and the two free values (R16 the random draw, R32 the key latch at power-up). The values the
parameters take for this hardware are in Machine/Parameters.lean. -/

namespace Sys2Proof

namespace Config

/-- `MEM_SIZE`: bytes of memory (R9, R26). -/
abbrev memSize : Nat := 4096

/-- `ROM_BASE`: load address of the ROM and reset value of pc (R9, R22). -/
abbrev romBase : Nat := 0x200

/-- `ROM_MAX`: largest ROM in bytes (R9, R107). -/
abbrev romMax : Nat := 3584

/-- `FB_WIDTH`: pixels in a row of the framebuffer (R9, R29). -/
abbrev fbWidth : Nat := 64

/-- `FB_HEIGHT`: rows of the framebuffer (R9, R29). -/
abbrev fbHeight : Nat := 32

/-- The free random byte of CXNN: the k-th draw (R16, R84, U6). No body: every value is admitted and successive
draws are unrelated. DESIGN CHOICE for its form, safe; notes/assumptions/2.md. -/
opaque draw : Nat → BitVec 8

/-- The free value of the key latch at power-up, "the model draws it from {none, 0..15}" (R32, U9). No body: every
value is admitted. DESIGN CHOICE for its form, safe; notes/assumptions/1.md. -/
opaque powerUpKey : Option (Fin 16)

end Config

/-- `ADDR_POLICY`: the effect of an access at an address of 4096 or more (R9, R14, R43). -/
inductive AddrPolicy where
  | fault
  | mask
deriving DecidableEq, Repr

/-- `LOW_WRITE_POLICY`: the effect of a data write to 0x000 to 0x1FF (R9, R14, R44). -/
inductive LowWritePolicy where
  | fault
  | allow
deriving DecidableEq, Repr

/-- `SYS_POLICY`: the meaning of 0NNN other than 00E0 and 00EE (R9, R54, R62). -/
inductive SysPolicy where
  | nop
  | fault
deriving DecidableEq, Repr

/-- The parameters of R9 that have an alternative value, or whose value is the spec's own decision. -/
structure Params where
  /-- `ADDR_POLICY` (D6). -/
  addrPolicy : AddrPolicy
  /-- `LOW_WRITE_POLICY` (D7). -/
  lowWritePolicy : LowWritePolicy
  /-- `SYS_POLICY` (D3). -/
  sysPolicy : SysPolicy
  /-- `LS_INCREMENT_I` (D14). -/
  lsIncrementI : Bool
  /-- `STACK_DEPTH`, at most the 16 entries State holds (D4). -/
  stackDepth : Fin 17
  /-- `FONT_BASE` (D8). -/
  fontBase : Nat
deriving DecidableEq, Repr

/-- "any value with FONT_BASE + 80 <= 0x200" (R9). -/
abbrev Params.legal (p : Params) : Prop := p.fontBase + 80 ≤ 0x200

end Sys2Proof
end

