-- ==== Sys2Proof/Machine/Parameters.lean ====
section
/-! DEFINITION. The "Value for this hardware" column of spec/00_scope.md R9, for the parameters the model takes as
arguments. -/

namespace Sys2Proof

/-- This hardware's parameters (R9, R10). Each value is the spec's decision; notes/assumptions/6.md to 11.md. -/
def Params.hardware : Params where
  addrPolicy := .fault
  lowWritePolicy := .fault
  sysPolicy := .nop
  lsIncrementI := false
  stackDepth := 16
  fontBase := 0x000

end Sys2Proof
end

