-- ==== Sys2Proof/Syntax.lean ====
section
/-! DEFINITION. The instruction set: one constructor for each of the 35 rows of spec/opcode_table.json, in the order of
spec/30_encoding.md R53, with the operand fields of R50 to R52. -/

namespace Sys2Proof

/-- The 35 instructions (R53). Operands: `x y : Reg` (a register index), `nn : Byte`, `nnn : Addr12`, `n : Count`. -/
inductive Instr where
  /-- 0NNN, SYS nnn (R62). -/
  | sys (nnn : Addr12)
  /-- 00E0, CLS (R93). -/
  | cls
  /-- 00EE, RET (R63). -/
  | ret
  /-- 1NNN, JP nnn (R64). -/
  | jp (nnn : Addr12)
  /-- 2NNN, CALL nnn (R65). -/
  | call (nnn : Addr12)
  /-- 3XNN, SE Vx, nn (R66). -/
  | seImm (x : Reg) (nn : Byte)
  /-- 4XNN, SNE Vx, nn (R67). -/
  | sneImm (x : Reg) (nn : Byte)
  /-- 5XY0, SE Vx, Vy (R68). -/
  | seReg (x y : Reg)
  /-- 6XNN, LD Vx, nn (R73). -/
  | ldImm (x : Reg) (nn : Byte)
  /-- 7XNN, ADD Vx, nn (R74). -/
  | addImm (x : Reg) (nn : Byte)
  /-- 8XY0, LD Vx, Vy (R75). -/
  | mov (x y : Reg)
  /-- 8XY1, OR Vx, Vy (R76). -/
  | or (x y : Reg)
  /-- 8XY2, AND Vx, Vy (R77). -/
  | and (x y : Reg)
  /-- 8XY3, XOR Vx, Vy (R78). -/
  | xor (x y : Reg)
  /-- 8XY4, ADD Vx, Vy (R79). -/
  | add (x y : Reg)
  /-- 8XY5, SUB Vx, Vy (R80). -/
  | sub (x y : Reg)
  /-- 8XY6, SHR Vx (R81). The field y is decoded and read by no rule (R51). -/
  | shr (x y : Reg)
  /-- 8XY7, SUBN Vx, Vy (R82). -/
  | subn (x y : Reg)
  /-- 8XYE, SHL Vx (R83). The field y is decoded and read by no rule (R51). -/
  | shl (x y : Reg)
  /-- 9XY0, SNE Vx, Vy (R69). -/
  | sneReg (x y : Reg)
  /-- ANNN, LD I, nnn (R87). -/
  | ldI (nnn : Addr12)
  /-- BNNN, JP V0, nnn (R70). -/
  | jpV0 (nnn : Addr12)
  /-- CXNN, RND Vx, nn (R84). -/
  | rnd (x : Reg) (nn : Byte)
  /-- DXYN, DRW Vx, Vy, n (R94). -/
  | drw (x y : Reg) (n : Count)
  /-- EX9E, SKP Vx (R96). -/
  | skp (x : Reg)
  /-- EXA1, SKNP Vx (R97). -/
  | sknp (x : Reg)
  /-- FX07, LD Vx, DT (R99). -/
  | ldVxDT (x : Reg)
  /-- FX0A, LD Vx, K (R98). -/
  | ldVxK (x : Reg)
  /-- FX15, LD DT, Vx (R100). -/
  | ldDTVx (x : Reg)
  /-- FX18, LD ST, Vx (R101). -/
  | ldSTVx (x : Reg)
  /-- FX1E, ADD I, Vx (R88). -/
  | addI (x : Reg)
  /-- FX29, LD F, Vx (R89). -/
  | ldF (x : Reg)
  /-- FX33, LD B, Vx (R90). -/
  | ldB (x : Reg)
  /-- FX55, LD [I], Vx (R91). -/
  | store (x : Reg)
  /-- FX65, LD Vx, [I] (R92). -/
  | load (x : Reg)
deriving DecidableEq, Repr

end Sys2Proof
end

