-- ==== Sys2Proof/Decode.lean ====
section
/-! DEFINITION. The decoder of spec/30_encoding.md R54, total on all 65536 opcodes and on any list of bytes, refusing by
name (R55); then the encoder, written from the opcode map of R53 (spec/opcode_table.json). -/

namespace Sys2Proof

/-- Why the decoder gives no instruction. -/
inductive DecodeError where
  /-- `decode(op)` is `Undefined` (R54, R55). -/
  | undefined (op : Word)
  /-- Fewer than the 2 bytes every instruction takes (R49). -/
  | truncated
deriving DecidableEq, Repr

/-- `op[15:12]`, the class nibble (R11, R50). -/
def opClass (op : Word) : BitVec 4 := op.extractLsb' 12 4

/-- `op[11:8]` as a register index (R11, R52). -/
def opX (op : Word) : Reg := ⟨(op.extractLsb' 8 4).toNat, (op.extractLsb' 8 4).isLt⟩

/-- `op[7:4]` as a register index (R11, R52). -/
def opY (op : Word) : Reg := ⟨(op.extractLsb' 4 4).toNat, (op.extractLsb' 4 4).isLt⟩

/-- `op[3:0]`, a sub-selector (R50). -/
def opSel (op : Word) : BitVec 4 := op.extractLsb' 0 4

/-- `op[3:0]` as the row count of DXYN (R52). -/
def opN (op : Word) : Count := ⟨(opSel op).toNat, (opSel op).isLt⟩

/-- `op[7:0]`, an immediate or a sub-selector (R50, R52). -/
def opNN (op : Word) : Byte := op.extractLsb' 0 8

/-- `op[11:0]`, an address (R52). -/
def opNNN (op : Word) : Addr12 := op.extractLsb' 0 12

/-- Class 0x0 (R54): CLS and RET are tested before the 0NNN pattern, and `SYS_POLICY` decides that pattern. -/
def decodeClass0 (policy : SysPolicy) (op : Word) : Except DecodeError Instr :=
  if op = 0x00E0 then .ok .cls
  else if op = 0x00EE then .ok .ret
  else match policy with
    | .nop => .ok (.sys (opNNN op))
    | .fault => .error (.undefined op)

/-- Class 0x8 by the low nibble (R54). -/
def decodeClass8 (op : Word) : Except DecodeError Instr :=
  match opSel op with
  | 0x0 => .ok (.mov (opX op) (opY op))
  | 0x1 => .ok (.or (opX op) (opY op))
  | 0x2 => .ok (.and (opX op) (opY op))
  | 0x3 => .ok (.xor (opX op) (opY op))
  | 0x4 => .ok (.add (opX op) (opY op))
  | 0x5 => .ok (.sub (opX op) (opY op))
  | 0x6 => .ok (.shr (opX op) (opY op))
  | 0x7 => .ok (.subn (opX op) (opY op))
  | 0xE => .ok (.shl (opX op) (opY op))
  | _ => .error (.undefined op)

/-- Class 0xE by the low byte (R54). -/
def decodeClassE (op : Word) : Except DecodeError Instr :=
  match opNN op with
  | 0x9E => .ok (.skp (opX op))
  | 0xA1 => .ok (.sknp (opX op))
  | _ => .error (.undefined op)

/-- Class 0xF by the low byte (R54). -/
def decodeClassF (op : Word) : Except DecodeError Instr :=
  match opNN op with
  | 0x07 => .ok (.ldVxDT (opX op))
  | 0x0A => .ok (.ldVxK (opX op))
  | 0x15 => .ok (.ldDTVx (opX op))
  | 0x18 => .ok (.ldSTVx (opX op))
  | 0x1E => .ok (.addI (opX op))
  | 0x29 => .ok (.ldF (opX op))
  | 0x33 => .ok (.ldB (opX op))
  | 0x55 => .ok (.store (opX op))
  | 0x65 => .ok (.load (opX op))
  | _ => .error (.undefined op)

/-- `decode(op)` under a `SYS_POLICY` (R54). The last line answers no opcode: the sixteen classes are all there are. -/
def decodeWith (policy : SysPolicy) (op : Word) : Except DecodeError Instr :=
  match opClass op with
  | 0x0 => decodeClass0 policy op
  | 0x1 => .ok (.jp (opNNN op))
  | 0x2 => .ok (.call (opNNN op))
  | 0x3 => .ok (.seImm (opX op) (opNN op))
  | 0x4 => .ok (.sneImm (opX op) (opNN op))
  | 0x5 => if opSel op = 0 then .ok (.seReg (opX op) (opY op)) else .error (.undefined op)
  | 0x6 => .ok (.ldImm (opX op) (opNN op))
  | 0x7 => .ok (.addImm (opX op) (opNN op))
  | 0x8 => decodeClass8 op
  | 0x9 => if opSel op = 0 then .ok (.sneReg (opX op) (opY op)) else .error (.undefined op)
  | 0xA => .ok (.ldI (opNNN op))
  | 0xB => .ok (.jpV0 (opNNN op))
  | 0xC => .ok (.rnd (opX op) (opNN op))
  | 0xD => .ok (.drw (opX op) (opY op) (opN op))
  | 0xE => decodeClassE op
  | 0xF => decodeClassF op
  | _ => .error (.undefined op)

/-- `decode(op)` of this hardware (R54, R10). -/
def decode (op : Word) : Except DecodeError Instr := decodeWith Params.hardware.sysPolicy op

/-- The big-endian opcode of two consecutive bytes (R37). -/
def opcodeOfBytes (hi lo : Byte) : Word := hi ++ lo

/-- The decoder on bytes as the hardware stores them: two are consumed, high byte first (R37, R49). -/
def decodeBytes : List Byte → Except DecodeError (Instr × List Byte)
  | hi :: lo :: rest => (decode (opcodeOfBytes hi lo)).map (·, rest)
  | _ => .error .truncated

/-- The two bytes of an opcode as the hardware stores them, high byte first (R37). -/
def bytesOfOpcode (op : Word) : List Byte := [op.extractLsb' 8 8, op.extractLsb' 0 8]

/-- The opcode of an instruction, from the match value and the field places of R51 and R53. -/
def encode : Instr → Word
  | .sys nnn => BitVec.ofNat 16 (0x0000 + nnn.toNat)
  | .cls => 0x00E0
  | .ret => 0x00EE
  | .jp nnn => BitVec.ofNat 16 (0x1000 + nnn.toNat)
  | .call nnn => BitVec.ofNat 16 (0x2000 + nnn.toNat)
  | .seImm x nn => BitVec.ofNat 16 (0x3000 + x.val * 0x100 + nn.toNat)
  | .sneImm x nn => BitVec.ofNat 16 (0x4000 + x.val * 0x100 + nn.toNat)
  | .seReg x y => BitVec.ofNat 16 (0x5000 + x.val * 0x100 + y.val * 0x10)
  | .ldImm x nn => BitVec.ofNat 16 (0x6000 + x.val * 0x100 + nn.toNat)
  | .addImm x nn => BitVec.ofNat 16 (0x7000 + x.val * 0x100 + nn.toNat)
  | .mov x y => BitVec.ofNat 16 (0x8000 + x.val * 0x100 + y.val * 0x10)
  | .or x y => BitVec.ofNat 16 (0x8001 + x.val * 0x100 + y.val * 0x10)
  | .and x y => BitVec.ofNat 16 (0x8002 + x.val * 0x100 + y.val * 0x10)
  | .xor x y => BitVec.ofNat 16 (0x8003 + x.val * 0x100 + y.val * 0x10)
  | .add x y => BitVec.ofNat 16 (0x8004 + x.val * 0x100 + y.val * 0x10)
  | .sub x y => BitVec.ofNat 16 (0x8005 + x.val * 0x100 + y.val * 0x10)
  | .shr x y => BitVec.ofNat 16 (0x8006 + x.val * 0x100 + y.val * 0x10)
  | .subn x y => BitVec.ofNat 16 (0x8007 + x.val * 0x100 + y.val * 0x10)
  | .shl x y => BitVec.ofNat 16 (0x800E + x.val * 0x100 + y.val * 0x10)
  | .sneReg x y => BitVec.ofNat 16 (0x9000 + x.val * 0x100 + y.val * 0x10)
  | .ldI nnn => BitVec.ofNat 16 (0xA000 + nnn.toNat)
  | .jpV0 nnn => BitVec.ofNat 16 (0xB000 + nnn.toNat)
  | .rnd x nn => BitVec.ofNat 16 (0xC000 + x.val * 0x100 + nn.toNat)
  | .drw x y n => BitVec.ofNat 16 (0xD000 + x.val * 0x100 + y.val * 0x10 + n.val)
  | .skp x => BitVec.ofNat 16 (0xE09E + x.val * 0x100)
  | .sknp x => BitVec.ofNat 16 (0xE0A1 + x.val * 0x100)
  | .ldVxDT x => BitVec.ofNat 16 (0xF007 + x.val * 0x100)
  | .ldVxK x => BitVec.ofNat 16 (0xF00A + x.val * 0x100)
  | .ldDTVx x => BitVec.ofNat 16 (0xF015 + x.val * 0x100)
  | .ldSTVx x => BitVec.ofNat 16 (0xF018 + x.val * 0x100)
  | .addI x => BitVec.ofNat 16 (0xF01E + x.val * 0x100)
  | .ldF x => BitVec.ofNat 16 (0xF029 + x.val * 0x100)
  | .ldB x => BitVec.ofNat 16 (0xF033 + x.val * 0x100)
  | .store x => BitVec.ofNat 16 (0xF055 + x.val * 0x100)
  | .load x => BitVec.ofNat 16 (0xF065 + x.val * 0x100)

/-- The bytes of an instruction in memory order (R37, R49). -/
def encodeBytes (i : Instr) : List Byte := bytesOfOpcode (encode i)

/-- The instruction the decoder reads from an instruction whose bits are `w`, the table giving `nbits` of them: the
bits above `nbits` are 0, the word is laid out as two bytes and given to `decodeBytes`. -/
def decodeTableWord (nbits w : Nat) : Option Instr :=
  match decodeBytes (bytesOfOpcode (BitVec.ofNat 16 (w % 2 ^ nbits))) with
  | .ok (i, _) => some i
  | .error _ => none

end Sys2Proof
end

