-- ==== Sys2Proof/Machine/State.lean ====
section
/-! DEFINITION. The state of the core (spec/10_state.md R19 to R35), plain data; the fatal errors (spec/60_exceptions.md
R102); what the model refuses; and the state after reset (R35). -/

namespace Sys2Proof.Machine

/-- The five fatal errors of R102, in the order of their codes 1 to 5. They are the `code` of the error record: the
spec describes what a fatal error leaves (R15, R103), so taking one is a NEXT STATE with `status = Halted`, and no step
ever answers `Host.Outcome.fault`. notes/assumptions/3.md. -/
inductive Fault where
  /-- Code 1: `decode(op)` is Undefined; raised by every Step after the fetch. Safe: the spec's own halt (R55, R102). -/
  | undefinedOpcode
  /-- Code 2: CALL with `sp = STACK_DEPTH`; raised by 2NNN. Safe: the spec's own halt (R65, R102). -/
  | stackOverflow
  /-- Code 3: RET with `sp = 0`; raised by 00EE. Safe: the spec's own halt (R63, R102). -/
  | stackUnderflow
  /-- Code 4: a computed address of 0x1000 or more under `ADDR_POLICY = fault`; raised by fetch, DXYN, FX33, FX55,
  FX65. Safe: if the source masks, the model halts where the source runs (R43, R102, D6). -/
  | addressOutOfRange
  /-- Code 5: a data write below 0x200 under `LOW_WRITE_POLICY = fault`; raised by FX33, FX55. Safe: if the source
  allows the write, the model halts where the source runs (R44, R102, D7). -/
  | protectedWrite
deriving DecidableEq, Repr

/-- What the model gives no meaning to. `step` answers none of these: they refuse inputs of the host. -/
inductive Refusal where
  /-- An instruction without a meaning, by its mnemonic; raised by `exec`'s refused arms, of which there are none.
  Safe: the model stops where the hardware goes on. -/
  | notModelled (mnemonic : String)
  /-- Reset with a ROM of more than 3584 bytes, "not a transaction of the core" (R107). Safe: no state results. -/
  | romTooLarge (length : Nat)
  /-- SetKey with a code outside 0 to 15, "not a SetKey input, and the model refuses it" (R113). Safe: no state
  results. -/
  | keyOutOfRange (code : Nat)
  /-- A `pixel(x, y)` query out of range: "The model refuses an out-of-range query" (R114). Safe: no answer results. -/
  | pixelOutOfRange (px py : Nat)
deriving DecidableEq, Repr

/-- The engine status (R31). -/
inductive Status where
  | running
  | awaitingKey
  | halted
deriving DecidableEq, Repr

/-- The error record of a fatal error (R30). -/
structure ErrorRecord where
  /-- The cause (R102). -/
  code : Fault
  /-- The faulting instruction's opcode, `none` for a fault during fetch. -/
  opcode : Option Word
  /-- The value of pc at the start of the faulting step. -/
  faultPc : Word
  /-- The offending address of AddressOutOfRange and ProtectedWrite, otherwise `none`. -/
  addr : Option Nat
deriving DecidableEq, Repr

/-- The 4096-byte memory (R26) as the list of the bytes that differ from the reset contents, by rising address. What an
unlisted address reads as is `Memory.resetByte` (Machine/Memory.lean). -/
abbrev Memory := List Host.Cell

/-- The 64 x 32 framebuffer (R29): row `py` is a word of 64 one-bit pixels, bit `px` of it the pixel `fb[px][py]`. -/
abbrev Framebuffer := Vector (BitVec 64) 32

/-- The CPU State (R19 to R32), and one counter of the model's own. -/
structure State where
  /-- V0 to VF (R19, R20). -/
  V : Vector Byte 16
  /-- The index register (R23). -/
  I : Word
  /-- The program counter (R22). -/
  pc : Word
  /-- The number of return addresses on the stack, 0 to 16 (R25). -/
  sp : Fin 17
  /-- The call stack (R24). -/
  stack : Vector Word 16
  /-- The delay timer (R28). -/
  DT : Byte
  /-- The sound timer (R28). -/
  ST : Byte
  /-- Memory (R26). -/
  mem : Memory
  /-- The framebuffer (R29). -/
  fb : Framebuffer
  /-- The engine status (R31). -/
  status : Status
  /-- The error record (R30). -/
  err : Option ErrorRecord
  /-- The pressed-key latch (R32). -/
  key : Option Key
  /-- How many random bytes CXNN has drawn: the model's own counter, the index of the free value `Config.draw`.
  DESIGN CHOICE, safe; notes/assumptions/2.md. -/
  draws : Nat
deriving DecidableEq, Repr

/-- The machine right after Reset with an empty ROM at power-up (R35, R120, R121). The key latch is a free value (R32,
notes/assumptions/1.md); `draws` is the model's own (notes/assumptions/2.md). -/
def State.reset : State where
  V := Vector.replicate 16 0
  I := 0
  pc := 0x200
  sp := 0
  stack := Vector.replicate 16 0
  DT := 0
  ST := 0
  mem := []
  fb := Vector.replicate 32 0
  status := .running
  err := none
  key := Config.powerUpKey
  draws := 0

/-- The outcome of an instruction or a step. -/
abbrev Result := Host.Outcome State Fault Refusal

end Sys2Proof.Machine
end

