-- ==== Sys2Proof/Machine/Memory.lean ====
section
/-! DEFINITION. Memory: the reset contents (spec/10_state.md R26, R27), the read and the write of one byte, and the
canonical form of the list. -/

namespace Sys2Proof.Machine

/-- `FONT_DATA`: the five rows of each of the 16 glyphs (R27). -/
def fontGlyphs : List (List Byte) :=
  [[0xF0, 0x90, 0x90, 0x90, 0xF0],
   [0x20, 0x60, 0x20, 0x20, 0x70],
   [0xF0, 0x10, 0xF0, 0x80, 0xF0],
   [0xF0, 0x10, 0xF0, 0x10, 0xF0],
   [0x90, 0x90, 0xF0, 0x10, 0x10],
   [0xF0, 0x80, 0xF0, 0x10, 0xF0],
   [0xF0, 0x80, 0xF0, 0x90, 0xF0],
   [0xF0, 0x10, 0x20, 0x40, 0x40],
   [0xF0, 0x90, 0xF0, 0x90, 0xF0],
   [0xF0, 0x90, 0xF0, 0x10, 0xF0],
   [0xF0, 0x90, 0xF0, 0x90, 0x90],
   [0xE0, 0x90, 0xE0, 0x90, 0xE0],
   [0xF0, 0x80, 0x80, 0x80, 0xF0],
   [0xE0, 0x90, 0x90, 0x90, 0xE0],
   [0xF0, 0x80, 0xF0, 0x80, 0xF0],
   [0xF0, 0x80, 0xF0, 0x80, 0x80]]

/-- The 80 font bytes in address order, `FONT_DATA[d][r]` at offset `5 * d + r` (R9, R27). -/
def fontData : List Byte := fontGlyphs.flatten

/-- What an address that the list does not name reads as: the contents Reset leaves with an empty ROM, the font at
`FONT_BASE` and 0 elsewhere (R26, R27, R35). notes/assumptions/4.md. -/
def Memory.resetByte (a : Nat) : Byte :=
  if Params.hardware.fontBase ≤ a then fontData.getD (a - Params.hardware.fontBase) 0 else 0

/-- The byte `mem[a]`. -/
def Memory.read (m : Memory) (a : Nat) : Byte :=
  match m with
  | [] => Memory.resetByte a
  | (k, b) :: rest => if k = a then b else Memory.read rest a

/-- `mem[a] <- v`, keeping the canonical form. -/
def Memory.write (m : Memory) (a : Nat) (v : Byte) : Memory :=
  match m with
  | [] => if v = Memory.resetByte a then [] else [(a, v)]
  | (k, b) :: rest =>
    if a < k then (if v = Memory.resetByte a then (k, b) :: rest else (a, v) :: (k, b) :: rest)
    else if a = k then (if v = Memory.resetByte a then rest else (a, v) :: rest)
    else (k, b) :: Memory.write rest a v

/-- Single-byte writes in list order: `mem[m0] <- v0; mem[m1] <- v1; ...` (R40). -/
def Memory.writeAll (m : Memory) : List (Nat × Byte) → Memory
  | [] => m
  | (a, v) :: rest => Memory.writeAll (m.write a v) rest

/-- The bytes `vs` at `a`, `a + 1`, ... -/
def Memory.writeFrom (m : Memory) (a : Nat) (vs : List Byte) : Memory :=
  m.writeAll ((List.range' a vs.length).zip vs)

/-- The canonical form: addresses strictly rising and inside memory, and no byte listed that the reset contents
already give. -/
abbrev Memory.wf (m : Memory) : Prop :=
  m.Pairwise (fun c d => c.1 < d.1) ∧ ∀ c ∈ m, c.1 < Config.memSize ∧ c.2 ≠ Memory.resetByte c.1

end Sys2Proof.Machine
end

