-- ==== Sys2Proof/Machine/Ops.lean ====
section
/-! DEFINITION. The operations every instruction is written over: registers, pc, stack, framebuffer, address
resolution and write protection (spec/00_scope.md R13, R14), and TAKING A FATAL ERROR (R15; spec/60_exceptions.md R103).
There is no return from a fatal error: "No instruction returns from a fault", only Reset leaves Halted (R104;
Machine/Transactions.lean). -/

namespace Sys2Proof.Machine

/-! ### Registers and pc -/

/-- `V[r]` (R13). -/
def State.getV (s : State) (r : Reg) : Byte := s.V[r]

/-- `V[r] <- v` (R13). -/
def State.setV (s : State) (r : Reg) (v : Byte) : State := { s with V := s.V.set r v }

/-- `V[x] <- result`, then VF `<- flag`: VF is written last (R72). -/
def State.setVFlag (s : State) (x : Reg) (rf : Byte × Byte) : State := (s.setV x rf.1).setV VF rf.2

/-- `V[k] <- b0; V[k+1] <- b1; ...` (R92). -/
def State.setVFrom (s : State) (k : Nat) : List Byte → State
  | [] => s
  | b :: bs => State.setVFrom { s with V := s.V.setIfInBounds k b } (k + 1) bs

/-- `pc <- pc + d`, modulo 2^16 (R13, R59). -/
def State.advance (s : State) (d : Word) : State := { s with pc := s.pc + d }

/-- The skip: `pc <- pc + 4` if taken, else `pc <- pc + 2` (R59). -/
def State.skipIf (s : State) (taken : Bool) : State := s.advance (if taken then 4 else 2)

/-! ### Fatal errors -/

/-- What a raising rule gives: the cause, and the offending address if the cause has one (R30, R102). -/
structure Raised where
  cause : Fault
  addr : Option Nat
deriving DecidableEq, Repr

/-- The numeric code of a fatal error (R102). -/
def Fault.code : Fault → Nat
  | .undefinedOpcode => 1
  | .stackOverflow => 2
  | .stackUnderflow => 3
  | .addressOutOfRange => 4
  | .protectedWrite => 5

/-- TAKING A FATAL ERROR: only the status and the error record are written; pc keeps the address of the faulting
instruction, which is `fault_pc` (R15, R103). -/
def State.raise (s : State) (opcode : Option Word) (r : Raised) : State :=
  { s with
    status := .halted
    err := some { code := r.cause, opcode := opcode, faultPc := s.pc, addr := r.addr } }

/-- An instruction whose checks come before its writes: it completes with the state they allow, or raises from the
state it began in (R15). -/
def State.attempt (s : State) (i : Instr) (checked : Except Raised State) : Result :=
  match checked with
  | .ok t => .next t
  | .error r => .next (s.raise (some (encode i)) r)

/-! ### Addresses -/

/-- `Addr(a)` (R14, R43). -/
def resolve (p : Params) (a : Nat) : Except Raised Nat :=
  if a ≤ 0xFFF then .ok a
  else match p.addrPolicy with
    | .mask => .ok (a % Config.memSize)
    | .fault => .error ⟨.addressOutOfRange, some a⟩

/-- `Addr(base), Addr(base + 1), ..., Addr(base + n - 1)` in ascending order (R86, R105). -/
def resolveRange (p : Params) (base : Nat) : Nat → Except Raised (List Nat)
  | 0 => .ok []
  | n + 1 =>
    match resolve p base with
    | .error r => .error r
    | .ok m =>
      match resolveRange p (base + 1) n with
      | .error r => .error r
      | .ok ms => .ok (m :: ms)

/-- The write protection of resolved addresses, the first offending one reported (R14, R44, R90, R105). -/
def protect (p : Params) : List Nat → Except Raised Unit
  | [] => .ok ()
  | m :: ms =>
    if m < 0x200 ∧ p.lowWritePolicy = .fault then .error ⟨.protectedWrite, some m⟩ else protect p ms

/-- The addresses of an n-byte data read at `base` (R92, R94). -/
def readTargets (p : Params) (base n : Nat) : Except Raised (List Nat) := resolveRange p base n

/-- The addresses of an n-byte data write at `base`: every one resolved, then every one tested (R86). -/
def writeTargets (p : Params) (base n : Nat) : Except Raised (List Nat) :=
  match resolveRange p base n with
  | .error r => .error r
  | .ok ms =>
    match protect p ms with
    | .error r => .error r
    | .ok () => .ok ms

/-! ### Framebuffer -/

/-- `fb[px][py] = 1` (R29); no pixel lies outside the 64 x 32 array. -/
def Framebuffer.pixel (fb : Framebuffer) (px py : Nat) : Bool :=
  if h : py < 32 then decide (px < 64) && (fb[py]).getLsbD px else false

/-- `fb[px][py] <- fb[px][py] xor 1` for a pixel on screen (R94). -/
def Framebuffer.flip (fb : Framebuffer) (px py : Nat) : Framebuffer :=
  if h : py < 32 then fb.set py (fb[py] ^^^ (1#64 <<< px)) else fb

/-- Every pixel 0 (R93). -/
def Framebuffer.blank : Framebuffer := Vector.replicate 32 0

end Sys2Proof.Machine
end

