-- ==== Sys2Proof/Machine/Controller.lean ====
section
/-! DEFINITION. The fetch-decode-execute cycle (spec/40_control_flow.md R57 to R61; spec/20_memory.md R38), over any
execution of the decoded instruction. Machine/Step.lean and Machine/Variants.lean give it theirs. -/

namespace Sys2Proof.Machine

/-- The fetch: the byte at pc is the high one, pc + 1 is computed without truncation (R38). -/
def fetch (p : Params) (s : State) : Except Raised Word :=
  match resolve p s.pc.toNat with
  | .error r => .error r
  | .ok hi =>
    match resolve p (s.pc.toNat + 1) with
    | .error r => .error r
    | .ok lo => .ok (opcodeOfBytes (s.mem.read hi) (s.mem.read lo))

/-- `inst = LD_VX_K`, the one instruction that sets the status itself (R57, R98). -/
def isWaitForKey (i : Instr) : Bool :=
  match i with
  | .ldVxK _ => true
  | .sys _ | .cls | .ret | .jp _ | .call _ | .seImm _ _ | .sneImm _ _ | .seReg _ _ | .ldImm _ _ | .addImm _ _
  | .mov _ _ | .or _ _ | .and _ _ | .xor _ _ | .add _ _ | .sub _ _ | .shr _ _ | .subn _ _ | .shl _ _
  | .sneReg _ _ | .ldI _ | .jpV0 _ | .rnd _ _ | .drw _ _ _ | .skp _ | .sknp _ | .ldVxDT _
  | .ldDTVx _ | .ldSTVx _ | .addI _ | .ldF _ | .ldB _ | .store _ | .load _ => false

/-- `if inst != LD_VX_K: status <- Running`, after an instruction that did not raise (R57). A state that is halted here
is one that raised: the step began in a state that was not (R60). -/
def settle (i : Instr) (t : State) : State :=
  if isWaitForKey i = true ∨ t.status = .halted then t else { t with status := .running }

/-- What Step does after the execution. -/
def finish (i : Instr) (r : Result) : Result :=
  match r with
  | .next t => .next (settle i t)
  | .fault f => .fault f
  | .refused c => .refused c

/-- The Step of R57: nothing while halted (R60), then fetch, decode and execute, the first check that fails reported
(R105). A fetch fault records no opcode (R38); an undefined opcode is recorded (R55). -/
def runStep (p : Params) (execute : Instr → State → Result) (s : State) : Result :=
  match s.status with
  | .halted => .next s
  | .running | .awaitingKey =>
    match fetch p s with
    | .error r => .next (s.raise none r)
    | .ok op =>
      match decodeWith p.sysPolicy op with
      | .error _ => .next (s.raise (some op) ⟨.undefinedOpcode, none⟩)
      | .ok i => finish i (execute i s)

/-- Where a program is placed that is to run next: at pc, or at the ROM base if no opcode can be fetched at pc. -/
def State.fetchAddress (s : State) : Word := if s.pc.toNat ≤ 0xFFE then s.pc else BitVec.ofNat 16 Config.romBase

/-- The state with an opcode at the next fetch, ready to run it: a halted engine fetches nothing (R60), so it is
set running. notes/assumptions/13.md. -/
def State.placeOpcode (s : State) (op : Word) : State :=
  { s with
    pc := s.fetchAddress
    mem := s.mem.writeFrom s.fetchAddress.toNat (bytesOfOpcode op)
    status := if s.status = .halted then .running else s.status
    err := if s.status = .halted then none else s.err }

end Sys2Proof.Machine
end

