-- ==== Sys2Proof/Machine/Operands.lean ====
section
/-! DEFINITION. Every operand form of the spec beside a plain register: the zero-extended address (R52), the glyph
address (R89), the three decimal digits (R90), the register range (R91), the key test (R95), the random draw (R16). -/

namespace Sys2Proof.Machine

/-- `zext_16(nnn)` (R52). -/
def zext16 (nnn : Addr12) : Word := nnn.setWidth 16

/-- `FONT_BASE + 5 * (v & 0x0F)`, the address of the glyph of the low nibble (R89). -/
def glyphAddress (p : Params) (v : Byte) : Word := BitVec.ofNat 16 (p.fontBase + 5 * (v &&& 0x0F).toNat)

/-- Hundreds, tens and ones of a byte (R90). -/
def bcdDigits (v : Byte) : List Byte :=
  [BitVec.ofNat 8 (v.toNat / 100), BitVec.ofNat 8 (v.toNat / 10 % 10), BitVec.ofNat 8 (v.toNat % 10)]

/-- How many registers the range V0..Vx has (R91). -/
def rangeLength (x : Reg) : Nat := x.val + 1

/-- The values of V0..Vx, V0 first (R91). -/
def State.rangeV (s : State) (x : Reg) : List Byte := s.V.toList.take (rangeLength x)

/-- `if LS_INCREMENT_I: I <- base + n` with base the value of I (R91, R92). -/
def State.bumpI (s : State) (p : Params) (n : Nat) : State :=
  if p.lsIncrementI then { s with I := s.I + BitVec.ofNat 16 n } else s

/-- `pressed(v)`: the latch holds a key and its code is v, on all 8 bits (R95). -/
def State.pressed (s : State) (v : Byte) : Bool :=
  match s.key with
  | none => false
  | some k => k.val == v.toNat

/-- `Draw8()` (R16): the next free byte. -/
def State.drawn (s : State) : Byte := Config.draw s.draws

/-- The counter after a draw: successive draws are unrelated (R84). -/
def State.noteDraw (s : State) : State := { s with draws := s.draws + 1 }

end Sys2Proof.Machine
end

