-- ==== Sys2Proof/Machine/ControlFlow.lean ====
section
/-! DEFINITION. The control-transfer instructions (spec/40_control_flow.md R62 to R70). A meaning that depends on the
parameters of R9 is written once over `p : Params`, and its `exec` form takes this hardware's values. -/

namespace Sys2Proof.Machine

/-- SYS nnn (R62): under `SYS_POLICY = nop` it only advances pc; under `fault` it is never decoded (R54). -/
def execSys (_nnn : Addr12) (s : State) : Result := .next (s.advance 2)

/-- RET (R63). -/
def execRet (s : State) : Result :=
  s.attempt .ret
    (if h : s.sp.val = 0 then .error ⟨.stackUnderflow, none⟩
     else .ok { s with sp := ⟨s.sp.val - 1, by omega⟩, pc := s.stack[s.sp.val - 1]'(by omega) })

/-- JP nnn (R64). -/
def execJp (nnn : Addr12) (s : State) : Result := .next { s with pc := zext16 nnn }

/-- CALL nnn (R65). -/
def callWith (p : Params) (nnn : Addr12) (s : State) : Result :=
  s.attempt (.call nnn)
    (if h : s.sp.val < p.stackDepth.val then
       .ok { s with
         stack := s.stack.set s.sp.val (s.pc + 2) (by omega)
         sp := ⟨s.sp.val + 1, by omega⟩
         pc := zext16 nnn }
     else .error ⟨.stackOverflow, none⟩)

/-- CALL nnn on this hardware (R65). -/
def execCall (nnn : Addr12) (s : State) : Result := callWith Params.hardware nnn s

/-- SE Vx, nn (R66). -/
def execSeImm (x : Reg) (nn : Byte) (s : State) : Result := .next (s.skipIf (s.getV x == nn))

/-- SNE Vx, nn (R67). -/
def execSneImm (x : Reg) (nn : Byte) (s : State) : Result := .next (s.skipIf (s.getV x != nn))

/-- SE Vx, Vy (R68). -/
def execSeReg (x y : Reg) (s : State) : Result := .next (s.skipIf (s.getV x == s.getV y))

/-- SNE Vx, Vy (R69). -/
def execSneReg (x y : Reg) (s : State) : Result := .next (s.skipIf (s.getV x != s.getV y))

/-- JP V0, nnn (R70): the sum is not masked to 12 bits. -/
def execJpV0 (nnn : Addr12) (s : State) : Result :=
  .next { s with pc := BitVec.ofNat 16 (nnn.toNat + (s.getV 0).toNat) }

end Sys2Proof.Machine
end

