-- ==== Sys2Proof/Machine/Flags.lean ====
section
/-! DEFINITION. Every flag computation of the ALU (spec/41_register_alu.md R71, R79 to R83): each gives the result for
V[x] and the flag for VF. Operands are numbers 0 to 255, the exact result is formed first and then masked. -/

namespace Sys2Proof.Machine

/-- A flag as the byte VF takes. -/
def flagByte (b : Bool) : Byte := if b then 1 else 0

/-- 8XY4: the sum, and the carry, 1 exactly when the unmasked sum exceeds 255 (R79). -/
def addCarry (a b : Byte) : Byte × Byte :=
  let sum := a.toNat + b.toNat
  (BitVec.ofNat 8 sum, flagByte (decide (sum > 255)))

/-- 8XY5: `a - b`, and NOT borrow, 0 exactly when the integer difference is negative (R80). -/
def subNotBorrow (a b : Byte) : Byte × Byte :=
  let difference : Int := (a.toNat : Int) - (b.toNat : Int)
  (BitVec.ofInt 8 difference, flagByte (decide (¬ difference < 0)))

/-- 8XY7: `b - a`, and NOT borrow of it (R82). -/
def subReverse (a b : Byte) : Byte × Byte := subNotBorrow b a

/-- 8XY6: `v >> 1`, and the bit shifted out, the old bit 0 (R81). -/
def shiftRight (v : Byte) : Byte × Byte := (v >>> 1, flagByte (v.getLsbD 0))

/-- 8XYE: `v << 1`, and the bit shifted out, the old bit 7 (R83). -/
def shiftLeft (v : Byte) : Byte × Byte := (v <<< 1, flagByte (v.getLsbD 7))

end Sys2Proof.Machine
end

