-- ==== Sys2Proof/Machine/Display.lean ====
section
/-! DEFINITION. The framebuffer instructions (spec/43_display.md R93, R94). -/

namespace Sys2Proof.Machine

/-- CLS (R93): every pixel 0; VF is not written. -/
def execCls (s : State) : Result := .next ({ s with fb := Framebuffer.blank }.advance 2)

/-- A draw in progress: the framebuffer and the collision found so far (R94). -/
structure Drawing where
  fb : Framebuffer
  collision : Bool
deriving DecidableEq, Repr

/-- One 1 bit of the sprite at `px, py`: clipped off screen, else a collision if the pixel is on, and then XOR (R94). -/
def Drawing.dot (d : Drawing) (px py : Nat) : Drawing :=
  if px < Config.fbWidth ∧ py < Config.fbHeight then
    { fb := d.fb.flip px py, collision := d.collision || d.fb.pixel px py }
  else d

/-- The bits of one sprite byte from column `c` on, `fuel` of them: bit `7 - c` is the pixel at `x0 + c` (R94). -/
def Drawing.bits (row : Byte) (x0 py : Nat) (c : Nat) : Nat → Drawing → Drawing
  | 0, d => d
  | fuel + 1, d =>
    Drawing.bits row x0 py (c + 1) fuel (if row.getLsbD (7 - c) then d.dot (x0 + c) py else d)

/-- The sprite's rows from the top, the first at `py` (R94). -/
def Drawing.rows (x0 : Nat) : List Byte → Nat → Drawing → Drawing
  | [], _, d => d
  | row :: rest, py, d => Drawing.rows x0 rest (py + 1) (Drawing.bits row x0 py 0 8 d)

/-- The whole draw of R94: `collision <- 0`, then every row. -/
def Framebuffer.draw (fb : Framebuffer) (x0 y0 : Nat) (sprite : List Byte) : Drawing :=
  Drawing.rows x0 sprite y0 { fb := fb, collision := false }

/-- DRW Vx, Vy, n (R94): the coordinates and all n bytes are read first, VF is written last. -/
def drwWith (p : Params) (x y : Reg) (n : Count) (s : State) : Result :=
  s.attempt (.drw x y n)
    ((readTargets p s.I.toNat n.val).map fun ms =>
      let d := s.fb.draw (s.getV x).toNat (s.getV y).toNat (ms.map s.mem.read)
      ({ s with fb := d.fb }.setV VF (flagByte d.collision)).advance 2)

/-- DRW Vx, Vy, n on this hardware (R94). -/
def execDrw (x y : Reg) (n : Count) (s : State) : Result := drwWith Params.hardware x y n s

end Sys2Proof.Machine
end

