-- ==== Sys2Proof/Machine/IndexMemory.lean ====
section
/-! DEFINITION. The index register and memory transfers (spec/42_index_memory.md R85 to R92). Every address is resolved,
and every written one tested, before the first write (R86). -/

namespace Sys2Proof.Machine

/-- LD I, nnn (R87). -/
def execLdI (nnn : Addr12) (s : State) : Result := .next ({ s with I := zext16 nnn }.advance 2)

/-- ADD I, Vx (R88): modulo 2^16, no flag. -/
def execAddI (x : Reg) (s : State) : Result :=
  .next ({ s with I := BitVec.ofNat 16 (s.I.toNat + (s.getV x).toNat) }.advance 2)

/-- LD F, Vx (R89). -/
def ldFWith (p : Params) (x : Reg) (s : State) : Result :=
  .next ({ s with I := glyphAddress p (s.getV x) }.advance 2)

/-- LD F, Vx on this hardware (R89). -/
def execLdF (x : Reg) (s : State) : Result := ldFWith Params.hardware x s

/-- LD B, Vx (R90). -/
def ldBWith (p : Params) (x : Reg) (s : State) : Result :=
  s.attempt (.ldB x)
    ((writeTargets p s.I.toNat 3).map fun ms =>
      { s with mem := s.mem.writeAll (ms.zip (bcdDigits (s.getV x))) }.advance 2)

/-- LD B, Vx on this hardware (R90). -/
def execLdB (x : Reg) (s : State) : Result := ldBWith Params.hardware x s

/-- LD [I], Vx (R91). -/
def storeWith (p : Params) (x : Reg) (s : State) : Result :=
  s.attempt (.store x)
    ((writeTargets p s.I.toNat (rangeLength x)).map fun ms =>
      ({ s with mem := s.mem.writeAll (ms.zip (s.rangeV x)) }.bumpI p (rangeLength x)).advance 2)

/-- LD [I], Vx on this hardware (R91). -/
def execStore (x : Reg) (s : State) : Result := storeWith Params.hardware x s

/-- LD Vx, [I] (R92). -/
def loadWith (p : Params) (x : Reg) (s : State) : Result :=
  s.attempt (.load x)
    ((readTargets p s.I.toNat (rangeLength x)).map fun ms =>
      ((s.setVFrom 0 (ms.map s.mem.read)).bumpI p (rangeLength x)).advance 2)

/-- LD Vx, [I] on this hardware (R92). -/
def execLoad (x : Reg) (s : State) : Result := loadWith Params.hardware x s

end Sys2Proof.Machine
end

