-- ==== Sys2Proof/Machine/KeysTimers.lean ====
section
/-! DEFINITION. The key and timer instructions (spec/44_keys_timers.md R95 to R101). -/

namespace Sys2Proof.Machine

/-- SKP Vx (R96): the latch is read and not changed. -/
def execSkp (x : Reg) (s : State) : Result := .next (s.skipIf (s.pressed (s.getV x)))

/-- SKNP Vx (R97). -/
def execSknp (x : Reg) (s : State) : Result := .next (s.skipIf (!s.pressed (s.getV x)))

/-- LD Vx, K (R98): with no key the engine waits and pc stays; with one, any key held satisfies it. -/
def execLdVxK (x : Reg) (s : State) : Result :=
  .next
    (match s.key with
     | none => { s with status := .awaitingKey }
     | some k => { s.setV x (BitVec.ofNat 8 k.val) with status := .running }.advance 2)

/-- LD Vx, DT (R99). -/
def execLdVxDT (x : Reg) (s : State) : Result := .next ((s.setV x s.DT).advance 2)

/-- LD DT, Vx (R100). -/
def execLdDTVx (x : Reg) (s : State) : Result := .next ({ s with DT := s.getV x }.advance 2)

/-- LD ST, Vx (R101). -/
def execLdSTVx (x : Reg) (s : State) : Result := .next ({ s with ST := s.getV x }.advance 2)

end Sys2Proof.Machine
end

