-- ==== Sys2Proof/Machine/RegisterAlu.lean ====
section
/-! DEFINITION. Register loads and the ALU (spec/41_register_alu.md R71 to R84). The operands of every instruction are
read from the state it begins in; V[x] is written before VF (R72). -/

namespace Sys2Proof.Machine

/-- LD Vx, nn (R73). -/
def execLdImm (x : Reg) (nn : Byte) (s : State) : Result := .next ((s.setV x nn).advance 2)

/-- ADD Vx, nn (R74): no flag. -/
def execAddImm (x : Reg) (nn : Byte) (s : State) : Result :=
  .next ((s.setV x (BitVec.ofNat 8 ((s.getV x).toNat + nn.toNat))).advance 2)

/-- LD Vx, Vy (R75). -/
def execMov (x y : Reg) (s : State) : Result := .next ((s.setV x (s.getV y)).advance 2)

/-- OR Vx, Vy (R76): VF is not reset. -/
def execOr (x y : Reg) (s : State) : Result := .next ((s.setV x (s.getV x ||| s.getV y)).advance 2)

/-- AND Vx, Vy (R77): VF is not reset. -/
def execAnd (x y : Reg) (s : State) : Result := .next ((s.setV x (s.getV x &&& s.getV y)).advance 2)

/-- XOR Vx, Vy (R78): VF is not reset. -/
def execXor (x y : Reg) (s : State) : Result := .next ((s.setV x (s.getV x ^^^ s.getV y)).advance 2)

/-- ADD Vx, Vy (R79): VF = carry. -/
def execAdd (x y : Reg) (s : State) : Result :=
  .next ((s.setVFlag x (addCarry (s.getV x) (s.getV y))).advance 2)

/-- SUB Vx, Vy (R80): VF = NOT borrow. -/
def execSub (x y : Reg) (s : State) : Result :=
  .next ((s.setVFlag x (subNotBorrow (s.getV x) (s.getV y))).advance 2)

/-- SHR Vx (R81): the field y is ignored; VF = the bit shifted out. -/
def execShr (x _y : Reg) (s : State) : Result := .next ((s.setVFlag x (shiftRight (s.getV x))).advance 2)

/-- SUBN Vx, Vy (R82): VF = NOT borrow of Vy - Vx. -/
def execSubn (x y : Reg) (s : State) : Result :=
  .next ((s.setVFlag x (subReverse (s.getV x) (s.getV y))).advance 2)

/-- SHL Vx (R83): the field y is ignored; VF = the bit shifted out. -/
def execShl (x _y : Reg) (s : State) : Result := .next ((s.setVFlag x (shiftLeft (s.getV x))).advance 2)

/-- RND Vx, nn with the draw `rnd` of the Step (R84). -/
def rndWith (rnd : Byte) (x : Reg) (nn : Byte) (s : State) : Result :=
  .next ((s.setV x (rnd &&& nn)).advance 2)

/-- RND Vx, nn with the free draw (R16, R84; notes/assumptions/2.md). -/
def execRnd (x : Reg) (nn : Byte) (s : State) : Result := rndWith s.drawn x nn s.noteDraw

end Sys2Proof.Machine
end

