-- ==== Sys2Proof/Machine/Step.lean ====
section
/-! DEFINITION. One Step of this hardware (spec/40_control_flow.md R57), and the placing of an instruction where the
next Step fetches. -/

namespace Sys2Proof.Machine

/-- Step at the parameters of this hardware, the draw of CXNN taken from the free value (R16, R57). -/
def step (s : State) : Host.Outcome State Fault Refusal := runStep Params.hardware exec s

/-- `s` with the instruction of bits `w` stored where the next Step fetches: high byte at pc, low byte at pc + 1 (R37).
notes/assumptions/13.md. -/
def State.withFetchWord (s : State) (nbits w : Nat) : State := s.placeOpcode (BitVec.ofNat 16 (w % 2 ^ nbits))

end Sys2Proof.Machine
end

