-- ==== Sys2Proof/Machine/Variants.lean ====
section
/-! DEFINITION. The machine under any parameters of spec/00_scope.md R9 and with the draw of R16 as an argument: the
`Step(rnd)` of spec/40_control_flow.md R57. `step` is its case at this hardware's parameters. -/

namespace Sys2Proof.Machine

/-- The execution of an instruction under parameters `p` with the draw `rnd` (R9, R16). Seven instructions depend on
them. -/
def execWith (p : Params) (rnd : Byte) (i : Instr) (s : State) : Result :=
  match i with
  | .sys nnn => execSys nnn s
  | .cls => execCls s
  | .ret => execRet s
  | .jp nnn => execJp nnn s
  | .call nnn => callWith p nnn s
  | .seImm x nn => execSeImm x nn s
  | .sneImm x nn => execSneImm x nn s
  | .seReg x y => execSeReg x y s
  | .ldImm x nn => execLdImm x nn s
  | .addImm x nn => execAddImm x nn s
  | .mov x y => execMov x y s
  | .or x y => execOr x y s
  | .and x y => execAnd x y s
  | .xor x y => execXor x y s
  | .add x y => execAdd x y s
  | .sub x y => execSub x y s
  | .shr x y => execShr x y s
  | .subn x y => execSubn x y s
  | .shl x y => execShl x y s
  | .sneReg x y => execSneReg x y s
  | .ldI nnn => execLdI nnn s
  | .jpV0 nnn => execJpV0 nnn s
  | .rnd x nn => rndWith rnd x nn s
  | .drw x y n => drwWith p x y n s
  | .skp x => execSkp x s
  | .sknp x => execSknp x s
  | .ldVxDT x => execLdVxDT x s
  | .ldVxK x => execLdVxK x s
  | .ldDTVx x => execLdDTVx x s
  | .ldSTVx x => execLdSTVx x s
  | .addI x => execAddI x s
  | .ldF x => ldFWith p x s
  | .ldB x => ldBWith p x s
  | .store x => storeWith p x s
  | .load x => loadWith p x s

/-- `Step(rnd)` under parameters `p` (R57). -/
def stepWith (p : Params) (rnd : Byte) (s : State) : Result := runStep p (execWith p rnd) s

end Sys2Proof.Machine
end

