-- ==== Sys2Proof/Machine/Transactions.lean ====
section
/-! DEFINITION. The host's transactions (spec/60_exceptions.md R109 to R116; spec/70_reset_and_hazards.md R120, R121),
each one atomic transition. Reset is the only way out of Halted (R104). -/

namespace Sys2Proof.Machine

/-! ### Reset -/

/-- Memory after Reset: zeroed, the font at `FONT_BASE`, the ROM from 0x200 (R26, R120). The write protection does not
apply to Reset's own writes. -/
def resetMemory (p : Params) (rom : List Byte) : Memory :=
  let zeroed := Memory.writeFrom [] Params.hardware.fontBase (List.replicate fontData.length 0)
  (zeroed.writeFrom p.fontBase fontData).writeFrom Config.romBase rom

/-- The state Reset leaves (R35, R120): the key latch is not touched, and the model's own counter of draws goes on. -/
def State.resetTo (s : State) (p : Params) (rom : List Byte) : State :=
  { State.reset with mem := resetMemory p rom, key := s.key, draws := s.draws }

/-- `Reset(rom)`: a ROM over 3584 bytes is no transaction of the core (R107, R120). -/
def resetWith (p : Params) (rom : List Byte) (s : State) : Result :=
  if rom.length ≤ Config.romMax then .next (s.resetTo p rom) else .refused (.romTooLarge rom.length)

/-- Power-up: a Reset with the ROM the host loaded, the key latch at any value `latch` (R32, R121). -/
def powerUp (p : Params) (latch : Option Key) (rom : List Byte) : Result :=
  resetWith p rom { State.reset with key := latch }

/-! ### SetKey and Tick -/

/-- `SetKey(k)`: `none` or a code 0 to 15; another code is refused (R113). -/
def setKey (k : Option Nat) (s : State) : Result :=
  match k with
  | none => .next { s with key := none }
  | some c => if h : c < 16 then .next { s with key := some ⟨c, h⟩ } else .refused (.keyOutOfRange c)

/-- One decrement, "floor-clamped at 0" (R109). -/
def countDown (t : Byte) : Byte := if t.toNat > 0 then t - 1 else t

/-- The state after `Tick()`: both timers, and nothing while halted (R109). -/
def State.ticked (s : State) : State :=
  if s.status = .halted then s else { s with DT := countDown s.DT, ST := countDown s.ST }

/-! ### Observations -/

/-- `sound_active = (ST != 0)` (R110). -/
def State.soundActive (s : State) : Bool := s.ST != 0

/-- `pixel(x, y)`; out of range the model gives no answer (R114). -/
def State.queryPixel (s : State) (px py : Nat) : Except Refusal Bool :=
  if px < Config.fbWidth ∧ py < Config.fbHeight then .ok (s.fb.pixel px py) else .error (.pixelOutOfRange px py)

/-! ### Transactions -/

/-- The transactions of R112. -/
inductive Transaction where
  | reset (rom : List Byte)
  | setKey (k : Option Nat)
  | step (rnd : Byte)
  | tick
  | pixel (px py : Nat)
  | soundActive
  | readState
deriving DecidableEq, Repr

/-- What a transaction returns (R112). -/
inductive Answer where
  | nothing
  /-- Step returns the status it leaves, with the error record while halted (R31, R57). -/
  | status (status : Status) (err : Option ErrorRecord)
  | bit (on : Bool)
  /-- ReadState returns a copy of CPU State (R116). -/
  | state (copy : State)
deriving DecidableEq, Repr

/-- The effect of a transaction (R112): one atomic transition, or a refusal of the host's input. -/
def transact (p : Params) (t : Transaction) (s : State) : Result :=
  match t with
  | .reset rom => resetWith p rom s
  | .setKey k => Sys2Proof.Machine.setKey k s
  | .step rnd => stepWith p rnd s
  | .tick => .next s.ticked
  | .pixel px py =>
    match s.queryPixel px py with
    | .ok _ => .next s
    | .error r => .refused r
  | .soundActive => .next s
  | .readState => .next s

/-- What an accepted transaction returns, from the state it leaves (R112). -/
def answer (t : Transaction) (s : State) : Answer :=
  match t with
  | .reset _ | .setKey _ | .tick => .nothing
  | .step _ => .status s.status s.err
  | .pixel px py => .bit (s.fb.pixel px py)
  | .soundActive => .bit s.soundActive
  | .readState => .state s

/-- A run of the core: the host's transactions one after another, in any interleaving (R115, R124, R126). -/
def runTransactions (p : Params) : List Transaction → State → Result
  | [], s => .next s
  | t :: ts, s =>
    match transact p t s with
    | .next s' => runTransactions p ts s'
    | .fault f => .fault f
    | .refused r => .refused r

end Sys2Proof.Machine
end

