-- ==== Sys2Proof/Safety.lean ====
section
/-! DEFINITION. The terms claims are made in: what two states share (frames), the invariant of the core, and the ways a
run ends (spec/70_reset_and_hazards.md R126). -/

namespace Sys2Proof.Machine

/-! ### Frames -/

/-- The parts of the state a frame speaks of: each field of State. -/
inductive Part where
  | regs | I | pc | sp | stack | DT | ST | mem | fb | status | err | key | draws
deriving DecidableEq, Repr

/-- Two states agree at a part. Registers, memory and framebuffer are compared through their reads. -/
def SameAt (q : Part) (s t : State) : Prop :=
  match q with
  | .regs => ∀ r : Reg, t.getV r = s.getV r
  | .I => t.I = s.I
  | .pc => t.pc = s.pc
  | .sp => t.sp = s.sp
  | .stack => t.stack = s.stack
  | .DT => t.DT = s.DT
  | .ST => t.ST = s.ST
  | .mem => ∀ a : Nat, t.mem.read a = s.mem.read a
  | .fb => ∀ px py : Nat, t.fb.pixel px py = s.fb.pixel px py
  | .status => t.status = s.status
  | .err => t.err = s.err
  | .key => t.key = s.key
  | .draws => t.draws = s.draws

/-- Two states agree at every part but those named. -/
def SameBut (changed : List Part) (s t : State) : Prop := ∀ q : Part, q ∉ changed → SameAt q s t

/-- Two states agree at every general register but those named. -/
def RegsBut (changed : List Reg) (s t : State) : Prop := ∀ r : Reg, r ∉ changed → t.getV r = s.getV r

/-- A register instruction that completes: the named registers may change, pc advances by 2, nothing else changes. -/
def RegisterOnly (changed : List Reg) (s t : State) : Prop :=
  RegsBut changed s t ∧ t.pc = s.pc + 2 ∧ SameBut [.regs, .pc] s t

/-- `t` is `s` after a fatal error: Halted, the error record with `fault_pc` the pc of `s`, nothing else changed
(R15, R30, R103). -/
def HaltsWith (code : Fault) (opcode : Option Word) (addr : Option Nat) (s t : State) : Prop :=
  t.status = .halted ∧ t.err = some { code := code, opcode := opcode, faultPc := s.pc, addr := addr } ∧
    SameBut [.status, .err] s t

/-! ### The tables of the spec, as functions of the instruction -/

/-- The column "Writes" of R21. -/
def registersWritten (i : Instr) : List Reg :=
  match i with
  | .ldImm x _ | .addImm x _ | .mov x _ | .or x _ | .and x _ | .xor x _ | .rnd x _ | .ldVxDT x | .ldVxK x => [x]
  | .add x _ | .sub x _ | .subn x _ | .shr x _ | .shl x _ => [x, VF]
  | .drw _ _ _ => [VF]
  | .load x => (List.finRange 16).filter (· ≤ x)
  | .sys _ | .cls | .ret | .jp _ | .call _ | .seImm _ _ | .sneImm _ _ | .seReg _ _ | .sneReg _ _ | .ldI _ | .jpV0 _
  | .skp _ | .sknp _ | .ldDTVx _ | .ldSTVx _ | .addI _ | .ldF _ | .ldB _ | .store _ => []

/-- The column "Reads" of R21. -/
def registersRead (i : Instr) : List Reg :=
  match i with
  | .seImm x _ | .sneImm x _ | .addImm x _ | .shr x _ | .shl x _ | .skp x | .sknp x | .ldDTVx x | .ldSTVx x | .addI x
  | .ldF x | .ldB x => [x]
  | .seReg x y | .sneReg x y | .or x y | .and x y | .xor x y | .add x y | .sub x y | .subn x y | .drw x y _ => [x, y]
  | .mov _ y => [y]
  | .jpV0 _ => [0]
  | .store x => (List.finRange 16).filter (· ≤ x)
  | .sys _ | .cls | .ret | .jp _ | .call _ | .ldImm _ _ | .ldI _ | .rnd _ _ | .ldVxDT _ | .ldVxK _ | .load _ => []

/-- The pixel `px, py` is one that the sprite of DXYN sets a 1 bit on: row `py - y0` of the sprite is at
`I + (py - y0)`, resolved, its leftmost pixel is bit 7 (R94). -/
def spriteBitAt (resolved : Nat → Nat) (s : State) (x y : Reg) (n : Count) (px py : Nat) : Bool :=
  let x0 := (s.getV x).toNat
  let y0 := (s.getV y).toNat
  decide (x0 ≤ px ∧ px < x0 + 8 ∧ y0 ≤ py ∧ py < y0 + n.val) &&
    (s.mem.read (resolved (s.I.toNat + (py - y0)))).getLsbD (7 - (px - x0))

/-- The same where every sprite byte is inside memory (R94). -/
def spriteBit (s : State) (x y : Reg) (n : Count) (px py : Nat) : Bool := spriteBitAt (fun a => a) s x y n px py

/-! ### Memory transfers under any parameters (R85, R86) -/

/-- Where the k-th byte of an access at I goes, if it goes anywhere: `I + k`, modulo 4096 under mask (R43, R85). -/
def target (p : Params) (s : State) (k : Nat) : Nat :=
  match p.addrPolicy with
  | .mask => (s.I.toNat + k) % 4096
  | .fault => s.I.toNat + k

/-- No byte of an n-byte access at I raises AddressOutOfRange (R43). -/
def TargetsInMemory (p : Params) (s : State) (n : Nat) : Prop := p.addrPolicy = .mask ∨ s.I.toNat + n ≤ 0x1000

/-- No byte of an n-byte write at I raises ProtectedWrite (R44). -/
def TargetsWritable (p : Params) (s : State) (n : Nat) : Prop :=
  p.lowWritePolicy = .allow ∨ ∀ k, k < n → 0x200 ≤ target p s k

/-- The k-th byte is the first of an n-byte write at I that raises ProtectedWrite (R44, R105). -/
def FirstProtected (p : Params) (s : State) (n k : Nat) : Prop :=
  p.lowWritePolicy = .fault ∧ k < n ∧ target p s k < 0x200 ∧ ∀ j, j < k → 0x200 ≤ target p s j

/-- `t` has the bytes `v 0` to `v (n - 1)` at the targets of an access at the I of `s`, and every other byte as `s`. -/
def Stored (p : Params) (n : Nat) (v : Nat → Byte) (s t : State) : Prop :=
  (∀ k, k < n → t.mem.read (target p s k) = v k) ∧
    ∀ a, (∀ k, k < n → a ≠ target p s k) → t.mem.read a = s.mem.read a

/-! ### The invariant -/

/-- The first 0x200 bytes hold what Reset put there: the font is "never mutated afterward except by explicit reset"
(R27, R44). -/
def LowMemoryIntact (s : State) : Prop := ∀ a : Nat, a < 0x200 → s.mem.read a = Memory.resetByte a

/-- The status is Halted "exactly when `err != none`" (R31). -/
def ErrorMatchesStatus (s : State) : Prop := s.status = .halted ↔ s.err ≠ none

/-- While the status is AwaitingKey, "`pc` still holds the address of the FX0A" (R61). -/
def WaitsAtWaitForKey (s : State) : Prop :=
  s.status = .awaitingKey →
    ∃ (op : Word) (x : Reg), fetch Params.hardware s = .ok op ∧ decode op = .ok (.ldVxK x)

/-- The invariant of the core: memory in its canonical form, the low memory intact, the error record and the status in
agreement, the wait at its instruction. -/
structure Invariant (s : State) : Prop where
  memory : s.mem.wf
  lowMemory : LowMemoryIntact s
  errorRecord : ErrorMatchesStatus s
  waiting : WaitsAtWaitForKey s

/-! ### Runs -/

/-- A run of the core: "a sequence of transactions from a Reset" (R126). -/
def runFromReset (p : Params) (rom : List Byte) (ts : List Transaction) (s : State) : Result :=
  runTransactions p (.reset rom :: ts) s

/-- The engine has not met a fatal error: what a claim about a program takes as its premise (D19). -/
def NotHalted (s : State) : Prop := s.status ≠ .halted

/-- No key comes: no transaction is a SetKey of a key (R126). -/
def NoKeyIn (ts : List Transaction) : Prop := ∀ k : Nat, Transaction.setKey (some k) ∉ ts

/-- No transaction is a Reset: the run goes on (R126). -/
def NoResetIn (ts : List Transaction) : Prop := ∀ rom : List Byte, Transaction.reset rom ∉ ts

/-- End kind (a) of R126: Halted after a fatal error. -/
def EndsHalted (s : State) : Prop := s.status = .halted

/-- End kind (b) of R126: a Step leaves every state element unchanged. -/
def EndsAtFixedPoint (s : State) : Prop := step s = .next s

/-- End kind (c) of R126: waiting with no key in the latch, and over the rest of the run "no later SetKey of a
non-`none` key" (one already in the latch would end the wait at the next Step, R118). -/
def EndsAwaitingKey (s : State) (later : List Transaction) : Prop :=
  s.status = .awaitingKey ∧ s.key = none ∧ NoKeyIn later

/-- The kinds of R126: "A claim about the end state must name which of (a), (b) or (c) it means." -/
inductive EndKind where
  | halted
  | fixedPoint
  | awaitingKey
deriving DecidableEq, Repr

/-- A run ends in this way at `s`, `later` being the rest of it (R126). -/
def Ends (kind : EndKind) (s : State) (later : List Transaction) : Prop :=
  match kind with
  | .halted => EndsHalted s
  | .fixedPoint => EndsAtFixedPoint s
  | .awaitingKey => EndsAwaitingKey s later

end Sys2Proof.Machine
end

