-- ==== Sys2Proof/Certificates/Slice0/Obligations.lean ====
section
/-! DEFINITION. The statements for the provers, from the numbered rules of spec/. "Completes" means that exec answers a
next state. Opcodes are written out as numbers from the opcode map of R53, not through the model's encoder. -/

open Sys2Proof Sys2Proof.Machine

/-! ### Encoding -/

/-- R53, R54: decoding the encoding of a well-formed instruction gives it back with every operand, as a word and as
bytes in memory order. -/
def Obligations.DecodeOfEncodeIsTheInstruction : Prop :=
  ∀ i : Instr, i.wellFormed = true →
    decode (encode i) = .ok i ∧ ∀ rest : List Byte, decodeBytes (encodeBytes i ++ rest) = .ok (i, rest)

/-- R54: each opcode that decodes is the encoding of the one well-formed instruction it decodes to. -/
def Obligations.EncodeOfDecodeIsTheOpcode : Prop :=
  ∀ (op : Word) (i : Instr), decode op = .ok i → i.wellFormed = true ∧ encode i = op

/-- R55: the opcodes that decode to Undefined are those of the table, under either SYS_POLICY. -/
def Obligations.UndefinedOpcodesAreThoseOfTheTable : Prop :=
  ∀ op : Word,
    let w := op.toNat
    let illegal : Prop :=
      (w / 4096 = 5 ∧ w % 16 ≠ 0) ∨ (w / 4096 = 8 ∧ w % 16 ∈ [0x8, 0x9, 0xA, 0xB, 0xC, 0xD, 0xF]) ∨
      (w / 4096 = 9 ∧ w % 16 ≠ 0) ∨ (w / 4096 = 14 ∧ w % 256 ∉ [0x9E, 0xA1]) ∨
      (w / 4096 = 15 ∧ w % 256 ∉ [0x07, 0x0A, 0x15, 0x18, 0x1E, 0x29, 0x33, 0x55, 0x65])
    (decode op = .error (.undefined op) ↔ illegal) ∧
    (decodeWith .fault op = .error (.undefined op) ↔ illegal ∨ (w / 4096 = 0 ∧ w ≠ 0x00E0 ∧ w ≠ 0x00EE)) ∧
    (∀ e, decode op = .error e → e = .undefined op)

/-- R53, R54: one opcode of each format, and its neighbours in class 0, decode to the instruction they stand for. -/
def Obligations.SampleOpcodesDecodeAsTheMapSays : Prop :=
  decode 0x00E0 = .ok .cls ∧ decode 0x00EE = .ok .ret ∧ decode 0x00E1 = .ok (.sys 0x0E1) ∧
  decode 0x2ABC = .ok (.call 0xABC) ∧ decode 0x6A3C = .ok (.ldImm 0xA 0x3C) ∧ decode 0x8124 = .ok (.add 1 2) ∧
  decode 0x812E = .ok (.shl 1 2) ∧ decode 0xDAB1 = .ok (.drw 0xA 0xB 1) ∧ decode 0xE5A1 = .ok (.sknp 5) ∧
  decode 0xF355 = .ok (.store 3)

/-! ### The step -/

/-- R37, R38, R43: the fetch is the big-endian pair at pc and pc + 1; under `fault` it raises AddressOutOfRange for the
first of the two beyond 0xFFF, under `mask` it takes them modulo 4096. -/
def Obligations.FetchReadsTheBigEndianPair : Prop :=
  ∀ (p : Params) (s : State),
    (s.pc.toNat ≤ 0xFFE → ∃ op : Word, fetch p s = .ok op ∧
      op.toNat = (s.mem.read s.pc.toNat).toNat * 256 + (s.mem.read (s.pc.toNat + 1)).toNat) ∧
    (p.addrPolicy = .fault → s.pc.toNat = 0xFFF → fetch p s = .error ⟨.addressOutOfRange, some 0x1000⟩) ∧
    (p.addrPolicy = .fault → 0x1000 ≤ s.pc.toNat → fetch p s = .error ⟨.addressOutOfRange, some s.pc.toNat⟩) ∧
    (p.addrPolicy = .mask → ∃ op : Word, fetch p s = .ok op ∧
      op.toNat = (s.mem.read (s.pc.toNat % 4096)).toNat * 256 + (s.mem.read ((s.pc.toNat + 1) % 4096)).toNat)

/-- R57: when the bytes at pc decode to an instruction, Step is its execution, and the status becomes Running unless the
instruction is FX0A or raised. -/
def Obligations.StepRunsTheDecodedInstruction : Prop :=
  ∀ (s : State) (i : Instr), s.status ≠ .halted → s.pc.toNat ≤ 0xFFE →
    decode (opcodeOfBytes (s.mem.read s.pc.toNat) (s.mem.read (s.pc.toNat + 1))) = .ok i →
    ∃ t, exec i s = .next t ∧
      ((t.status = .halted ∨ ∃ x, i = .ldVxK x) → step s = .next t) ∧
      ((t.status ≠ .halted ∧ ∀ x, i ≠ .ldVxK x) → step s = .next { t with status := .running })

/-- R38, R55, R57: a fetch beyond memory halts with no opcode recorded; an undefined opcode halts with its raw value;
nothing else changes. -/
def Obligations.StepHaltsOnFetchAndDecodeErrors : Prop :=
  ∀ s : State, s.status ≠ .halted →
    (0xFFE < s.pc.toNat → ∃ t, step s = .next t ∧
      HaltsWith .addressOutOfRange none (some (max s.pc.toNat 0x1000)) s t) ∧
    (s.pc.toNat ≤ 0xFFE → ∀ op e, op = opcodeOfBytes (s.mem.read s.pc.toNat) (s.mem.read (s.pc.toNat + 1)) →
      decode op = .error e → ∃ t, step s = .next t ∧ HaltsWith .undefinedOpcode (some op) none s t)

/-- R60: a Step while halted changes nothing, at any parameters and draw, and no transaction but Reset leaves Halted. -/
def Obligations.HaltedEngineLeavesOnlyByReset : Prop :=
  ∀ (p : Params) (s : State), s.status = .halted →
    step s = .next s ∧ (∀ rnd, stepWith p rnd s = .next s ∧ answer (.step rnd) s = .status .halted s.err) ∧
    ∀ (tr : Transaction) (t : State), transact p tr s = .next t → t.status ≠ .halted → ∃ rom, tr = .reset rom

/-- The model's choice of form (DESIGN CHOICE, notes/assumptions/3.md and 17.md), not a rule's word: every exec, step and
stepWith answers a next state, from every state, a fatal error being the next state that R15 describes, and exec being
total from a halted state too. -/
def Obligations.EveryInstructionAndStepAnswersANextState : Prop :=
  (∀ (i : Instr) (s : State), ∃ t, exec i s = .next t) ∧ (∀ s : State, ∃ t, step s = .next t) ∧
  ∀ (p : Params) (rnd : Byte) (s : State), ∃ t, stepWith p rnd s = .next t

/-- R15, R103: a fatal error writes the status and the error record only; `fault_pc` is the pc it leaves; the state
holds no other trace of the instruction. -/
def Obligations.FatalErrorIsPrecise : Prop :=
  ∀ s t : State, s.status ≠ .halted → step s = .next t → t.status = .halted →
    ∃ e : ErrorRecord, t = { s with status := .halted, err := some e } ∧ e.faultPc = s.pc ∧ e.faultPc = t.pc

/-- R102, R105: a Step that halts has one of the five causes, under the cause's own condition and with its record. -/
def Obligations.FatalErrorHasOneOfTheFiveCauses : Prop :=
  (Fault.undefinedOpcode.code = 1 ∧ Fault.stackOverflow.code = 2 ∧ Fault.stackUnderflow.code = 3 ∧
    Fault.addressOutOfRange.code = 4 ∧ Fault.protectedWrite.code = 5) ∧
  ∀ (s t : State) (e : ErrorRecord), s.status ≠ .halted → step s = .next t → t.status = .halted → t.err = some e →
    (0xFFE < s.pc.toNat ∧ e = ⟨.addressOutOfRange, none, s.pc, some (max s.pc.toNat 0x1000)⟩) ∨
    ∃ op : Word, s.pc.toNat ≤ 0xFFE ∧
      op = opcodeOfBytes (s.mem.read s.pc.toNat) (s.mem.read (s.pc.toNat + 1)) ∧
      ((decode op = .error (.undefined op) ∧ e = ⟨.undefinedOpcode, some op, s.pc, none⟩) ∨
       (∃ nnn, decode op = .ok (.call nnn) ∧ s.sp.val = 16 ∧ e = ⟨.stackOverflow, some op, s.pc, none⟩) ∨
       (decode op = .ok .ret ∧ s.sp.val = 0 ∧ e = ⟨.stackUnderflow, some op, s.pc, none⟩) ∨
       (∃ i k, decode op = .ok i ∧
          ((∃ x y n, i = .drw x y n ∧ k < n.val) ∨ (∃ x, i = .ldB x ∧ k < 3) ∨
           (∃ x, (i = .store x ∨ i = .load x) ∧ k ≤ x.val)) ∧
          0x1000 ≤ s.I.toNat + k ∧ (∀ j, j < k → s.I.toNat + j < 0x1000) ∧
          e = ⟨.addressOutOfRange, some op, s.pc, some (s.I.toNat + k)⟩) ∨
       (∃ i x, decode op = .ok i ∧ (i = .ldB x ∨ i = .store x) ∧ s.I.toNat < 0x200 ∧
          e = ⟨.protectedWrite, some op, s.pc, some s.I.toNat⟩))

/-- R31: after a Step the status is AwaitingKey exactly when the step executed FX0A with no key, and Halted exactly when
there is an error record; Step returns the status it leaves; Reset leaves Running. -/
def Obligations.StatusAfterAStep : Prop :=
  State.reset.status = .running ∧
  ∀ (s t : State), ErrorMatchesStatus s → step s = .next t →
    (t.status = .halted ↔ t.err ≠ none) ∧
    (s.status ≠ .halted → (t.status = .awaitingKey ↔
      s.key = none ∧ ∃ (op : Word) (x : Reg), fetch Params.hardware s = .ok op ∧ decode op = .ok (.ldVxK x))) ∧
    ∀ rnd, answer (.step rnd) t = .status t.status t.err

/-- R61, R98: a waiting engine with no key stays as it is, however often Step is called; with a key the FX0A at its pc
completes, and the register of that FX0A takes the key. -/
def Obligations.WaitingEngineIsRecallable : Prop :=
  ∀ s : State, WaitsAtWaitForKey s → s.status = .awaitingKey →
    (s.key = none → step s = .next s) ∧
    ∀ k : Key, s.key = some k → ∃ (op : Word) (x : Reg) (t : State),
      fetch Params.hardware s = .ok op ∧ decode op = .ok (.ldVxK x) ∧ step s = .next t ∧ (t.getV x).toNat = k.val ∧
      t.status = .running ∧ t.pc = s.pc + 2 ∧ RegsBut [x] s t ∧ SameBut [.regs, .pc, .status] s t

/-- R9, R16, R57: a Step of the model is a Step(rnd) of the spec at this hardware's parameters, for some draw, the
model's own counter aside. -/
def Obligations.StepIsTheSpecsStepForSomeDraw : Prop :=
  ∀ s t : State, step s = .next t → ∃ rnd : Byte, stepWith Params.hardware rnd s = .next { t with draws := s.draws }

/-! ### Invariants -/

/-- The invariant holds after Reset: memory, low memory, error record and status, wait (R26, R27, R31, R35). -/
def Obligations.InvariantHoldsAtReset : Prop := Invariant State.reset

/-- Every Step keeps the invariant: the memory keeps its canonical form, the low 0x200 bytes stay as Reset left them
(R27, R44), the error record is there exactly while Halted (R31), and the wait stays at its FX0A (R61). -/
def Obligations.StepKeepsTheInvariant : Prop := ∀ s t : State, Invariant s → step s = .next t → Invariant t

/-- Every transaction of the host keeps the invariant, whatever its inputs and draw (R112). -/
def Obligations.TransactionsKeepTheInvariant : Prop :=
  ∀ (tr : Transaction) (s t : State), Invariant s → transact Params.hardware tr s = .next t → Invariant t

/-- R104: from a halted state, any run without a Reset leaves everything but the key latch as it is; the first error
record since the last Reset stays. -/
def Obligations.FirstErrorStaysUntilReset : Prop :=
  ∀ (p : Params) (ts : List Transaction) (s t : State), s.status = .halted → (∀ rom, Transaction.reset rom ∉ ts) →
    runTransactions p ts s = .next t → t = { s with key := t.key }

/-- R126 (b), R60, R61, R64, R70: the fixed points of Step are the halted states, the states that wait at an FX0A with
no key, and the running states at a jump to itself (JP or JP V0); they are fixed under every parameter and draw, and
every later Step is the same. -/
def Obligations.FixedPointsOfStepAreThese : Prop :=
  ∀ s : State,
    (EndsAtFixedPoint s ↔
      s.status = .halted ∨
      ∃ i, s.pc.toNat ≤ 0xFFE ∧
        decode (opcodeOfBytes (s.mem.read s.pc.toNat) (s.mem.read (s.pc.toNat + 1))) = .ok i ∧
        ((s.status = .awaitingKey ∧ s.key = none ∧ ∃ x, i = .ldVxK x) ∨
         (s.status = .running ∧ ∃ nnn : Addr12,
           (i = .jp nnn ∧ nnn.toNat = s.pc.toNat) ∨
           (i = .jpV0 nnn ∧ nnn.toNat + (s.getV 0).toNat = s.pc.toNat)))) ∧
    (EndsAtFixedPoint s → (∀ (p : Params) (rnd : Byte), stepWith p rnd s = .next s) ∧
      ∀ k : Nat, Sys2Proof.core.run k s = .next s)

/-- R126 (c), R61, R98, R118: where a run ends awaiting a key at its FX0A, the rest of the run, with any Steps, draws,
Ticks and queries but no Reset, leaves everything but the two timers as it is. -/
def Obligations.RunAwaitingKeyStaysThere : Prop :=
  ∀ (later : List Transaction) (s t : State), WaitsAtWaitForKey s → EndsAwaitingKey s later → NoResetIn later →
    runTransactions Params.hardware later s = .next t → SameBut [.DT, .ST] s t

/-! ### Whole-machine rules -/

/-- R59: the new pc of every instruction. -/
def Obligations.ProgramCounterAdvancesAsListed : Prop :=
  ∀ (i : Instr) (s t : State), s.status ≠ .halted → exec i s = .next t →
    (t.status = .halted → t.pc = s.pc) ∧
    (t.status ≠ .halted →
      (∀ nnn, (i = .jp nnn ∨ i = .call nnn) → t.pc.toNat = nnn.toNat) ∧
      (∀ nnn, i = .jpV0 nnn → t.pc.toNat = nnn.toNat + (s.getV 0).toNat) ∧
      (i = .ret → s.stack[s.sp.val - 1]? = some t.pc) ∧
      (∀ x nn, i = .seImm x nn → t.pc = if s.getV x = nn then s.pc + 4 else s.pc + 2) ∧
      (∀ x nn, i = .sneImm x nn → t.pc = if s.getV x ≠ nn then s.pc + 4 else s.pc + 2) ∧
      (∀ x y, i = .seReg x y → t.pc = if s.getV x = s.getV y then s.pc + 4 else s.pc + 2) ∧
      (∀ x y, i = .sneReg x y → t.pc = if s.getV x ≠ s.getV y then s.pc + 4 else s.pc + 2) ∧
      (∀ x, i = .skp x → t.pc = if s.key.map Fin.val = some (s.getV x).toNat then s.pc + 4 else s.pc + 2) ∧
      (∀ x, i = .sknp x → t.pc = if s.key.map Fin.val = some (s.getV x).toNat then s.pc + 2 else s.pc + 4) ∧
      (∀ x, i = .ldVxK x → t.pc = if s.key = none then s.pc else s.pc + 2) ∧
      ((match i with
        | .jp _ | .call _ | .jpV0 _ | .ret | .seImm _ _ | .sneImm _ _ | .seReg _ _ | .sneReg _ _ | .skp _ | .sknp _
        | .ldVxK _ => False
        | _ => True) → t.pc = s.pc + 2))

/-- R21: no instruction writes a general register outside the column "Writes", and what an instruction does depends on
no general register outside the column "Reads": two states that differ in such registers only take the same path,
agree afterwards at everything but the registers, and at every register the instruction writes. -/
def Obligations.RegisterAccessIsAsListed : Prop :=
  (∀ (i : Instr) (s t : State), exec i s = .next t → RegsBut (registersWritten i) s t) ∧
  ∀ (i : Instr) (s u t t' : State), s.status ≠ .halted → SameBut [.regs] s u → u.fb = s.fb → u.mem = s.mem →
    (∀ r ∈ registersRead i, u.getV r = s.getV r) → exec i s = .next t → exec i u = .next t' →
    SameBut [.regs] t t' ∧ (t.status ≠ .halted → ∀ r ∈ registersWritten i, i = .ldVxK r ∧ s.key = none ∨
      t'.getV r = t.getV r)

/-- R26, R36: only FX33 and FX55 write memory, and only the bytes they store. -/
def Obligations.OnlyStoresWriteMemory : Prop :=
  ∀ (i : Instr) (s t : State), s.mem.wf → exec i s = .next t → ∀ a : Nat, t.mem.read a ≠ s.mem.read a →
    (∃ x, i = .ldB x ∧ s.I.toNat ≤ a ∧ a ≤ s.I.toNat + 2) ∨
    (∃ x, i = .store x ∧ s.I.toNat ≤ a ∧ a ≤ s.I.toNat + x.val)

/-- R23 to R25, R28 to R30, R32, R111: each special part of the state is written only by the instructions the spec
names; the key latch by none. The model's own choices in it: of the instructions only FX0A and a raise write the status,
Running being set by the step (DESIGN CHOICE, notes/assumptions/17.md), and the counter `draws`, written by CXNN alone,
is the model's own (DESIGN CHOICE, notes/assumptions/2.md). -/
def Obligations.SpecialStateWrittenOnlyAsNamed : Prop :=
  ∀ (i : Instr) (s t : State), exec i s = .next t →
    ((∀ nnn, i ≠ .ldI nnn) → (∀ x, i ≠ .addI x ∧ i ≠ .ldF x) → t.I = s.I) ∧
    ((∀ nnn, i ≠ .call nnn) → t.stack = s.stack) ∧ ((∀ nnn, i ≠ .call nnn) → i ≠ .ret → t.sp = s.sp) ∧
    ((∀ x, i ≠ .ldDTVx x) → t.DT = s.DT) ∧ ((∀ x, i ≠ .ldSTVx x) → t.ST = s.ST) ∧
    (i ≠ .cls → (∀ x y n, i ≠ .drw x y n) → t.fb = s.fb) ∧ t.key = s.key ∧
    (t.status ≠ .halted → t.err = s.err ∧ ((∀ x, i ≠ .ldVxK x) → t.status = s.status)) ∧
    ((∀ x nn, i ≠ .rnd x nn) → t.draws = s.draws)

/-- R28, R32: no instruction reads ST; only FX07 reads DT; only EX9E, EXA1 and FX0A read the key latch. -/
def Obligations.TimersAndKeyReadOnlyAsNamed : Prop :=
  ∀ (i : Instr) (s t : State), exec i s = .next t →
    ((∀ x, i ≠ .ldSTVx x) → ∀ v, exec i { s with ST := v } = .next { t with ST := v }) ∧
    ((∀ x, i ≠ .ldVxDT x ∧ i ≠ .ldDTVx x) → ∀ v, exec i { s with DT := v } = .next { t with DT := v }) ∧
    ((∀ x, i ≠ .skp x ∧ i ≠ .sknp x ∧ i ≠ .ldVxK x) → ∀ k, exec i { s with key := k } = .next { t with key := k })

/-- R47: a store is seen by the next fetch, with no fence between. -/
def Obligations.StoreIsSeenByTheNextFetch : Prop :=
  ∀ (x : Reg) (s t : State) (k : Nat), s.mem.wf → s.status = .running → exec (.store x) s = .next t →
    t.status = .running → (h : k + 1 ≤ x.val) → t.pc.toNat = s.I.toNat + k →
    fetch Params.hardware t = .ok (opcodeOfBytes (s.getV ⟨k, by omega⟩) (s.getV ⟨k + 1, by omega⟩))

/-- R43, R44: under ADDR_POLICY = mask no Step raises AddressOutOfRange, and under LOW_WRITE_POLICY = allow none raises
ProtectedWrite. -/
def Obligations.PoliciesDecideTheAddressErrors : Prop :=
  ∀ (p : Params) (rnd : Byte) (s t : State) (e : ErrorRecord), s.status ≠ .halted → stepWith p rnd s = .next t →
    t.status = .halted → t.err = some e →
    (p.addrPolicy = .mask → e.code ≠ .addressOutOfRange) ∧ (p.lowWritePolicy = .allow → e.code ≠ .protectedWrite)

/-! ### Control flow -/

/-- R62: SYS nnn only advances pc; under SYS_POLICY = fault its opcode is undefined, and a Step on it raises
UndefinedOpcode. -/
def Obligations.SysOnlyAdvances : Prop :=
  ∀ (nnn : Addr12) (s : State), nnn ≠ 0x0E0 → nnn ≠ 0x0EE →
    decode (BitVec.ofNat 16 nnn.toNat) = .ok (.sys nnn) ∧
    decodeWith .fault (BitVec.ofNat 16 nnn.toNat) = .error (.undefined (BitVec.ofNat 16 nnn.toNat)) ∧
    (∃ t, exec (.sys nnn) s = .next t ∧ t.pc = s.pc + 2 ∧ SameBut [.pc] s t) ∧
    ∀ (p : Params) (rnd : Byte), p.sysPolicy = .fault → s.status ≠ .halted →
      fetch p s = .ok (BitVec.ofNat 16 nnn.toNat) → ∃ t, stepWith p rnd s = .next t ∧
        HaltsWith .undefinedOpcode (some (BitVec.ofNat 16 nnn.toNat)) none s t

/-- R63: RET pops, and raises StackUnderflow on an empty stack; the popped entry keeps its value. -/
def Obligations.ReturnPopsOrUnderflows : Prop :=
  decode 0x00EE = .ok .ret ∧ ∀ s : State,
    (0 < s.sp.val → ∃ t, exec .ret s = .next t ∧ t.sp.val + 1 = s.sp.val ∧ s.stack[t.sp.val]? = some t.pc ∧
      SameBut [.sp, .pc] s t) ∧
    (s.sp.val = 0 → ∃ t, exec .ret s = .next t ∧ HaltsWith .stackUnderflow (some 0x00EE) none s t)

/-- R64, R70: JP sets pc to nnn; JP V0 sets it to nnn + V0, not masked to 12 bits. -/
def Obligations.JumpsSetTheProgramCounter : Prop :=
  ∀ (nnn : Addr12) (s : State),
    (decode (BitVec.ofNat 16 (0x1000 + nnn.toNat)) = .ok (.jp nnn) ∧
      ∃ t, exec (.jp nnn) s = .next t ∧ t.pc.toNat = nnn.toNat ∧ SameBut [.pc] s t) ∧
    (decode (BitVec.ofNat 16 (0xB000 + nnn.toNat)) = .ok (.jpV0 nnn) ∧
      ∃ t, exec (.jpV0 nnn) s = .next t ∧ t.pc.toNat = nnn.toNat + (s.getV 0).toNat ∧ SameBut [.pc] s t)

/-- R65: CALL pushes pc + 2 and jumps, and raises StackOverflow at sp = STACK_DEPTH: 16 on this hardware, and any other
depth under other parameters. -/
def Obligations.CallPushesOrOverflows : Prop :=
  ∀ (nnn : Addr12) (s : State),
    decode (BitVec.ofNat 16 (0x2000 + nnn.toNat)) = .ok (.call nnn) ∧
    (s.sp.val < 16 → ∃ t, exec (.call nnn) s = .next t ∧ t.stack[s.sp.val]? = some (s.pc + 2) ∧
      (∀ j, j ≠ s.sp.val → t.stack[j]? = s.stack[j]?) ∧ t.sp.val = s.sp.val + 1 ∧ t.pc.toNat = nnn.toNat ∧
      SameBut [.stack, .sp, .pc] s t) ∧
    (s.sp.val = 16 → ∃ t, exec (.call nnn) s = .next t ∧
      HaltsWith .stackOverflow (some (BitVec.ofNat 16 (0x2000 + nnn.toNat))) none s t) ∧
    ∀ (p : Params) (rnd : Byte),
      (s.sp.val < p.stackDepth.val → ∃ t, execWith p rnd (.call nnn) s = .next t ∧
        t.stack[s.sp.val]? = some (s.pc + 2) ∧ (∀ j, j ≠ s.sp.val → t.stack[j]? = s.stack[j]?) ∧
        t.sp.val = s.sp.val + 1 ∧ t.pc.toNat = nnn.toNat ∧ SameBut [.stack, .sp, .pc] s t) ∧
      (s.sp.val = p.stackDepth.val → ∃ t, execWith p rnd (.call nnn) s = .next t ∧
        HaltsWith .stackOverflow (some (BitVec.ofNat 16 (0x2000 + nnn.toNat))) none s t)

/-- R63, R65: a call and then a return come back to call-site pc + 2 with sp as before; nothing changes but pc and the
stack entry the call wrote. -/
def Obligations.CallThenReturnComesBack : Prop :=
  ∀ (nnn : Addr12) (s : State), s.sp.val < 16 →
    ∃ t u, exec (.call nnn) s = .next t ∧ exec .ret t = .next u ∧ u.pc = s.pc + 2 ∧
      (∀ j, j ≠ s.sp.val → u.stack[j]? = s.stack[j]?) ∧ SameBut [.pc, .stack] s u

/-- R66, R67: the skips on an immediate. -/
def Obligations.SkipsOnAnImmediate : Prop :=
  ∀ (x : Reg) (nn : Byte) (s : State),
    (decode (BitVec.ofNat 16 (0x3000 + x.val * 0x100 + nn.toNat)) = .ok (.seImm x nn) ∧
      ∃ t, exec (.seImm x nn) s = .next t ∧ t.pc = (if s.getV x = nn then s.pc + 4 else s.pc + 2) ∧
        SameBut [.pc] s t) ∧
    (decode (BitVec.ofNat 16 (0x4000 + x.val * 0x100 + nn.toNat)) = .ok (.sneImm x nn) ∧
      ∃ t, exec (.sneImm x nn) s = .next t ∧ t.pc = (if s.getV x = nn then s.pc + 2 else s.pc + 4) ∧
        SameBut [.pc] s t)

/-- R68, R69: the skips on two registers; a low nibble other than 0 makes the opcode undefined. -/
def Obligations.SkipsOnTwoRegisters : Prop :=
  ∀ (x y : Reg) (s : State),
    (decode (BitVec.ofNat 16 (0x5000 + x.val * 0x100 + y.val * 0x10)) = .ok (.seReg x y) ∧
      (∀ (k : Nat) (op : Word), 0 < k → k < 16 → op = BitVec.ofNat 16 (0x5000 + x.val * 0x100 + y.val * 0x10 + k) →
        decode op = .error (.undefined op)) ∧
      ∃ t, exec (.seReg x y) s = .next t ∧ t.pc = (if s.getV x = s.getV y then s.pc + 4 else s.pc + 2) ∧
        SameBut [.pc] s t) ∧
    (decode (BitVec.ofNat 16 (0x9000 + x.val * 0x100 + y.val * 0x10)) = .ok (.sneReg x y) ∧
      (∀ (k : Nat) (op : Word), 0 < k → k < 16 → op = BitVec.ofNat 16 (0x9000 + x.val * 0x100 + y.val * 0x10 + k) →
        decode op = .error (.undefined op)) ∧
      ∃ t, exec (.sneReg x y) s = .next t ∧ t.pc = (if s.getV x = s.getV y then s.pc + 2 else s.pc + 4) ∧
        SameBut [.pc] s t)

/-! ### Register loads and ALU -/

/-- R73: load immediate. -/
def Obligations.LoadImmediateSetsTheRegister : Prop :=
  ∀ (x : Reg) (nn : Byte) (s : State),
    decode (BitVec.ofNat 16 (0x6000 + x.val * 0x100 + nn.toNat)) = .ok (.ldImm x nn) ∧
    ∃ t, exec (.ldImm x nn) s = .next t ∧ t.getV x = nn ∧ RegisterOnly [x] s t

/-- R74: add immediate wraps modulo 256 and writes no carry. -/
def Obligations.AddImmediateWrapsWithoutCarry : Prop :=
  ∀ (x : Reg) (nn : Byte) (s : State),
    decode (BitVec.ofNat 16 (0x7000 + x.val * 0x100 + nn.toNat)) = .ok (.addImm x nn) ∧
    ∃ t, exec (.addImm x nn) s = .next t ∧ (t.getV x).toNat = ((s.getV x).toNat + nn.toNat) % 256 ∧
      RegisterOnly [x] s t

/-- R75 to R78: copy, OR, AND and XOR, bit by bit; none writes VF unless it is the destination. -/
def Obligations.CopyAndLogicWriteOnlyTheDestination : Prop :=
  ∀ (x y : Reg) (s : State),
    (decode (BitVec.ofNat 16 (0x8000 + x.val * 0x100 + y.val * 0x10)) = .ok (.mov x y) ∧
      ∃ t, exec (.mov x y) s = .next t ∧ t.getV x = s.getV y ∧ RegisterOnly [x] s t) ∧
    (decode (BitVec.ofNat 16 (0x8001 + x.val * 0x100 + y.val * 0x10)) = .ok (.or x y) ∧
      ∃ t, exec (.or x y) s = .next t ∧
        (∀ b, (t.getV x).getLsbD b = ((s.getV x).getLsbD b || (s.getV y).getLsbD b)) ∧ RegisterOnly [x] s t) ∧
    (decode (BitVec.ofNat 16 (0x8002 + x.val * 0x100 + y.val * 0x10)) = .ok (.and x y) ∧
      ∃ t, exec (.and x y) s = .next t ∧
        (∀ b, (t.getV x).getLsbD b = ((s.getV x).getLsbD b && (s.getV y).getLsbD b)) ∧ RegisterOnly [x] s t) ∧
    (decode (BitVec.ofNat 16 (0x8003 + x.val * 0x100 + y.val * 0x10)) = .ok (.xor x y) ∧
      ∃ t, exec (.xor x y) s = .next t ∧
        (∀ b, (t.getV x).getLsbD b = ((s.getV x).getLsbD b != (s.getV y).getLsbD b)) ∧ RegisterOnly [x] s t)

/-- R79: the sum, and VF = carry, also where Vx is VF. -/
def Obligations.AddSetsTheCarry : Prop :=
  ∀ (x y : Reg) (s : State),
    decode (BitVec.ofNat 16 (0x8004 + x.val * 0x100 + y.val * 0x10)) = .ok (.add x y) ∧
    ∃ t, exec (.add x y) s = .next t ∧
      (x ≠ VF → (t.getV x).toNat = ((s.getV x).toNat + (s.getV y).toNat) % 256) ∧
      t.getV VF = (if (s.getV x).toNat + (s.getV y).toNat > 255 then 1 else 0) ∧ RegisterOnly [x, VF] s t

/-- R80, R82: the differences Vx - Vy and Vy - Vx, and VF = NOT borrow, also where Vx is VF. -/
def Obligations.SubtractionsSetNotBorrow : Prop :=
  ∀ (x y : Reg) (s : State),
    (decode (BitVec.ofNat 16 (0x8005 + x.val * 0x100 + y.val * 0x10)) = .ok (.sub x y) ∧
      ∃ t, exec (.sub x y) s = .next t ∧
        (x ≠ VF → (t.getV x).toNat = ((s.getV x).toNat + 256 - (s.getV y).toNat) % 256) ∧
        t.getV VF = (if (s.getV x).toNat < (s.getV y).toNat then 0 else 1) ∧ RegisterOnly [x, VF] s t) ∧
    (decode (BitVec.ofNat 16 (0x8007 + x.val * 0x100 + y.val * 0x10)) = .ok (.subn x y) ∧
      ∃ t, exec (.subn x y) s = .next t ∧
        (x ≠ VF → (t.getV x).toNat = ((s.getV y).toNat + 256 - (s.getV x).toNat) % 256) ∧
        t.getV VF = (if (s.getV y).toNat < (s.getV x).toNat then 0 else 1) ∧ RegisterOnly [x, VF] s t)

/-- R81, R83: the shifts of Vx in place by one, whatever y is, and VF = the bit shifted out, also where Vx is VF. -/
def Obligations.ShiftsCaptureTheBitShiftedOut : Prop :=
  ∀ (x y : Reg) (s : State),
    (decode (BitVec.ofNat 16 (0x8006 + x.val * 0x100 + y.val * 0x10)) = .ok (.shr x y) ∧
      ∃ t, exec (.shr x y) s = .next t ∧ (x ≠ VF → (t.getV x).toNat = (s.getV x).toNat / 2) ∧
        (t.getV VF).toNat = (s.getV x).toNat % 2 ∧ RegisterOnly [x, VF] s t) ∧
    (decode (BitVec.ofNat 16 (0x800E + x.val * 0x100 + y.val * 0x10)) = .ok (.shl x y) ∧
      ∃ t, exec (.shl x y) s = .next t ∧ (x ≠ VF → (t.getV x).toNat = (s.getV x).toNat * 2 % 256) ∧
        (t.getV VF).toNat = (s.getV x).toNat / 128 ∧ RegisterOnly [x, VF] s t)

/-- R84: Vx takes the draw AND the immediate, for every draw of the Step. -/
def Obligations.RandomLoadMasksTheDraw : Prop :=
  ∀ (x : Reg) (nn : Byte) (s : State),
    decode (BitVec.ofNat 16 (0xC000 + x.val * 0x100 + nn.toNat)) = .ok (.rnd x nn) ∧
    ∀ (p : Params) (rnd : Byte), ∃ t, execWith p rnd (.rnd x nn) s = .next t ∧ t.getV x = rnd &&& nn ∧
      RegisterOnly [x] s t

/-- The model's own form of R84 (DESIGN CHOICE, notes/assumptions/2.md): the draw of `exec` is the free value at the
counter, and the counter moves on. Nothing is said of the value. -/
def Obligations.RandomLoadTakesAFreeDraw : Prop :=
  ∀ (x : Reg) (nn : Byte) (s : State),
    ∃ t, exec (.rnd x nn) s = .next t ∧ t.getV x = Config.draw s.draws &&& nn ∧ t.draws = s.draws + 1 ∧
      t.pc = s.pc + 2 ∧ RegsBut [x] s t ∧ SameBut [.regs, .pc, .draws] s t

/-! ### Index register and memory -/

/-- R87, R88: the writes of I. -/
def Obligations.IndexLoadAndIncrement : Prop :=
  (∀ (nnn : Addr12) (s : State),
    decode (BitVec.ofNat 16 (0xA000 + nnn.toNat)) = .ok (.ldI nnn) ∧
    ∃ t, exec (.ldI nnn) s = .next t ∧ t.I.toNat = nnn.toNat ∧ t.pc = s.pc + 2 ∧ SameBut [.I, .pc] s t) ∧
  ∀ (x : Reg) (s : State),
    decode (BitVec.ofNat 16 (0xF01E + x.val * 0x100)) = .ok (.addI x) ∧
    ∃ t, exec (.addI x) s = .next t ∧ t.I.toNat = (s.I.toNat + (s.getV x).toNat) % 65536 ∧ t.pc = s.pc + 2 ∧
      SameBut [.I, .pc] s t

/-- R89: I takes the address of the glyph of the low nibble of Vx, at this hardware's FONT_BASE of 0 and at any other. -/
def Obligations.GlyphAddressOfTheLowNibble : Prop :=
  ∀ (x : Reg) (s : State),
    decode (BitVec.ofNat 16 (0xF029 + x.val * 0x100)) = .ok (.ldF x) ∧
    (∃ t, exec (.ldF x) s = .next t ∧ t.I.toNat = 5 * ((s.getV x).toNat % 16) ∧ t.pc = s.pc + 2 ∧
      SameBut [.I, .pc] s t) ∧
    ∀ (p : Params) (rnd : Byte), p.legal → ∃ t, execWith p rnd (.ldF x) s = .next t ∧
      t.I.toNat = p.fontBase + 5 * ((s.getV x).toNat % 16) ∧ t.pc = s.pc + 2 ∧ SameBut [.I, .pc] s t

/-- R90, at this hardware's parameters: three decimal digits at I to I + 2, or a fault with nothing written. -/
def Obligations.BcdStoreWritesThreeDigits : Prop :=
  ∀ (x : Reg) (s : State), s.mem.wf →
    decode (BitVec.ofNat 16 (0xF033 + x.val * 0x100)) = .ok (.ldB x) ∧
    (0x200 ≤ s.I.toNat → s.I.toNat + 2 ≤ 0xFFF → ∃ t, exec (.ldB x) s = .next t ∧
      (t.mem.read s.I.toNat).toNat = (s.getV x).toNat / 100 ∧
      (t.mem.read (s.I.toNat + 1)).toNat = (s.getV x).toNat / 10 % 10 ∧
      (t.mem.read (s.I.toNat + 2)).toNat = (s.getV x).toNat % 10 ∧
      (∀ a, (a < s.I.toNat ∨ s.I.toNat + 2 < a) → t.mem.read a = s.mem.read a) ∧
      t.pc = s.pc + 2 ∧ SameBut [.mem, .pc] s t) ∧
    (s.I.toNat < 0x200 → ∃ t, exec (.ldB x) s = .next t ∧
      HaltsWith .protectedWrite (some (BitVec.ofNat 16 (0xF033 + x.val * 0x100))) (some s.I.toNat) s t) ∧
    (0xFFF < s.I.toNat + 2 → ∃ t, exec (.ldB x) s = .next t ∧
      HaltsWith .addressOutOfRange (some (BitVec.ofNat 16 (0xF033 + x.val * 0x100))) (some (max s.I.toNat 0x1000)) s t)

/-- R91, at this hardware's parameters: V0 to Vx at I to I + x, I unchanged, or a fault with nothing written. -/
def Obligations.BlockStoreWritesTheRegisterRange : Prop :=
  ∀ (x : Reg) (s : State), s.mem.wf →
    decode (BitVec.ofNat 16 (0xF055 + x.val * 0x100)) = .ok (.store x) ∧
    (0x200 ≤ s.I.toNat → s.I.toNat + x.val ≤ 0xFFF → ∃ t, exec (.store x) s = .next t ∧
      (∀ k : Reg, k ≤ x → t.mem.read (s.I.toNat + k.val) = s.getV k) ∧
      (∀ a, (a < s.I.toNat ∨ s.I.toNat + x.val < a) → t.mem.read a = s.mem.read a) ∧
      t.pc = s.pc + 2 ∧ SameBut [.mem, .pc] s t) ∧
    (s.I.toNat < 0x200 → ∃ t, exec (.store x) s = .next t ∧
      HaltsWith .protectedWrite (some (BitVec.ofNat 16 (0xF055 + x.val * 0x100))) (some s.I.toNat) s t) ∧
    (0xFFF < s.I.toNat + x.val → ∃ t, exec (.store x) s = .next t ∧
      HaltsWith .addressOutOfRange (some (BitVec.ofNat 16 (0xF055 + x.val * 0x100))) (some (max s.I.toNat 0x1000)) s t)

/-- R92, at this hardware's parameters: V0 to Vx from I to I + x, I unchanged, or a fault with nothing written. -/
def Obligations.BlockLoadReadsTheRegisterRange : Prop :=
  ∀ (x : Reg) (s : State),
    decode (BitVec.ofNat 16 (0xF065 + x.val * 0x100)) = .ok (.load x) ∧
    (s.I.toNat + x.val ≤ 0xFFF → ∃ t, exec (.load x) s = .next t ∧
      (∀ k : Reg, k ≤ x → t.getV k = s.mem.read (s.I.toNat + k.val)) ∧
      (∀ k : Reg, x < k → t.getV k = s.getV k) ∧ t.pc = s.pc + 2 ∧ SameBut [.regs, .pc] s t) ∧
    (0xFFF < s.I.toNat + x.val → ∃ t, exec (.load x) s = .next t ∧
      HaltsWith .addressOutOfRange (some (BitVec.ofNat 16 (0xF065 + x.val * 0x100))) (some (max s.I.toNat 0x1000)) s t)

/-- R90 to R92 under the other parameter values: with ADDR_POLICY = mask and LOW_WRITE_POLICY = allow the transfers take
the addresses modulo 4096, and LS_INCREMENT_I decides whether FX55 and FX65 add x + 1 to I. -/
def Obligations.TransfersUnderMaskAndIncrement : Prop :=
  ∀ (p : Params) (rnd : Byte) (x : Reg) (s : State), s.mem.wf → p.addrPolicy = .mask → p.lowWritePolicy = .allow →
    let newI : Word := if p.lsIncrementI then s.I + BitVec.ofNat 16 (x.val + 1) else s.I
    (∃ t, execWith p rnd (.ldB x) s = .next t ∧
      (t.mem.read (s.I.toNat % 4096)).toNat = (s.getV x).toNat / 100 ∧
      (t.mem.read ((s.I.toNat + 1) % 4096)).toNat = (s.getV x).toNat / 10 % 10 ∧
      (t.mem.read ((s.I.toNat + 2) % 4096)).toNat = (s.getV x).toNat % 10 ∧
      (∀ a, (∀ k, k < 3 → a ≠ (s.I.toNat + k) % 4096) → t.mem.read a = s.mem.read a) ∧
      t.pc = s.pc + 2 ∧ SameBut [.mem, .pc] s t) ∧
    (∃ t, execWith p rnd (.store x) s = .next t ∧
      (∀ k : Reg, k ≤ x → t.mem.read ((s.I.toNat + k.val) % 4096) = s.getV k) ∧
      (∀ a, (∀ k, k ≤ x.val → a ≠ (s.I.toNat + k) % 4096) → t.mem.read a = s.mem.read a) ∧
      t.I = newI ∧ t.pc = s.pc + 2 ∧ SameBut [.mem, .I, .pc] s t) ∧
    (∃ t, execWith p rnd (.load x) s = .next t ∧
      (∀ k : Reg, k ≤ x → t.getV k = s.mem.read ((s.I.toNat + k.val) % 4096)) ∧
      (∀ k : Reg, x < k → t.getV k = s.getV k) ∧
      t.I = newI ∧ t.pc = s.pc + 2 ∧ SameBut [.regs, .I, .pc] s t)

/-- R85, R86, R90 to R92, R105, at every value of every parameter: FX33, FX55 and FX65 complete where their bytes are
inside memory (always under mask) and, for the two stores, unprotected; they raise AddressOutOfRange for the first
address past the top under `fault`, else ProtectedWrite for the first protected target, and then nothing else changes.
The premise on memory is the model's form (notes/assumptions/4.md). -/
def Obligations.TransfersAtEveryParameterValue : Prop :=
  ∀ (p : Params) (rnd : Byte) (x : Reg) (s : State), s.mem.wf →
    let n := x.val + 1
    let newI : Word := if p.lsIncrementI then s.I + BitVec.ofNat 16 n else s.I
    let opB : Word := BitVec.ofNat 16 (0xF033 + x.val * 0x100)
    let opS : Word := BitVec.ofNat 16 (0xF055 + x.val * 0x100)
    let opL : Word := BitVec.ofNat 16 (0xF065 + x.val * 0x100)
    (TargetsInMemory p s 3 → TargetsWritable p s 3 → ∃ t, execWith p rnd (.ldB x) s = .next t ∧
      Stored p 3 (fun k => BitVec.ofNat 8 ((s.getV x).toNat / 10 ^ (2 - k) % 10)) s t ∧ t.pc = s.pc + 2 ∧
      SameBut [.mem, .pc] s t) ∧
    (TargetsInMemory p s n → TargetsWritable p s n → ∃ t, execWith p rnd (.store x) s = .next t ∧
      Stored p n (fun k => s.getV (Fin.ofNat 16 k)) s t ∧ t.I = newI ∧ t.pc = s.pc + 2 ∧
      SameBut [.mem, .I, .pc] s t) ∧
    (TargetsInMemory p s n → ∃ t, execWith p rnd (.load x) s = .next t ∧
      (∀ k : Reg, k ≤ x → t.getV k = s.mem.read (target p s k.val)) ∧ (∀ k : Reg, x < k → t.getV k = s.getV k) ∧
      t.I = newI ∧ t.pc = s.pc + 2 ∧ SameBut [.regs, .I, .pc] s t) ∧
    (¬ TargetsInMemory p s 3 → ∃ t, execWith p rnd (.ldB x) s = .next t ∧
      HaltsWith .addressOutOfRange (some opB) (some (max s.I.toNat 0x1000)) s t) ∧
    (¬ TargetsInMemory p s n →
      (∃ t, execWith p rnd (.store x) s = .next t ∧
        HaltsWith .addressOutOfRange (some opS) (some (max s.I.toNat 0x1000)) s t) ∧
      ∃ t, execWith p rnd (.load x) s = .next t ∧
        HaltsWith .addressOutOfRange (some opL) (some (max s.I.toNat 0x1000)) s t) ∧
    (∀ k, TargetsInMemory p s 3 → FirstProtected p s 3 k → ∃ t, execWith p rnd (.ldB x) s = .next t ∧
      HaltsWith .protectedWrite (some opB) (some (target p s k)) s t) ∧
    (∀ k, TargetsInMemory p s n → FirstProtected p s n k → ∃ t, execWith p rnd (.store x) s = .next t ∧
      HaltsWith .protectedWrite (some opS) (some (target p s k)) s t)

/-! ### Framebuffer -/

/-- R93: every pixel off, VF not written. -/
def Obligations.ClearScreenTurnsEveryPixelOff : Prop :=
  decode 0x00E0 = .ok .cls ∧ ∀ s : State, ∃ t, exec .cls s = .next t ∧ (∀ px py, t.fb.pixel px py = false) ∧
    t.pc = s.pc + 2 ∧ SameBut [.fb, .pc] s t

/-- R94, at this hardware's parameters: the draw loop is the XOR of the sprite over the screen, clipped and not
wrapped, and VF says whether a pixel went from 1 to 0; out of range it faults with nothing drawn. -/
def Obligations.SpriteDrawIsAClippedXor : Prop :=
  ∀ (x y : Reg) (n : Count) (s : State),
    decode (BitVec.ofNat 16 (0xD000 + x.val * 0x100 + y.val * 0x10 + n.val)) = .ok (.drw x y n) ∧
    ((n.val = 0 ∨ s.I.toNat + n.val ≤ 0x1000) → ∃ t, exec (.drw x y n) s = .next t ∧
      (∀ px py, px < 64 → py < 32 → t.fb.pixel px py = (s.fb.pixel px py != spriteBit s x y n px py)) ∧
      ((∃ px py, px < 64 ∧ py < 32 ∧ s.fb.pixel px py = true ∧ spriteBit s x y n px py = true) → t.getV VF = 1) ∧
      ((¬ ∃ px py, px < 64 ∧ py < 32 ∧ s.fb.pixel px py = true ∧ spriteBit s x y n px py = true) → t.getV VF = 0) ∧
      RegsBut [VF] s t ∧ t.pc = s.pc + 2 ∧ SameBut [.regs, .fb, .pc] s t) ∧
    (0 < n.val → 0x1000 < s.I.toNat + n.val → ∃ t, exec (.drw x y n) s = .next t ∧
      HaltsWith .addressOutOfRange (some (BitVec.ofNat 16 (0xD000 + x.val * 0x100 + y.val * 0x10 + n.val)))
        (some (max s.I.toNat 0x1000)) s t)

/-- R94 under either ADDR_POLICY: under mask DXYN completes from every state, its sprite bytes at the addresses modulo
4096; under `fault` it does what it does on this hardware, whatever the other parameters. -/
def Obligations.SpriteDrawAtEveryParameterValue : Prop :=
  ∀ (p : Params) (rnd : Byte) (x y : Reg) (n : Count) (s : State),
    (p.addrPolicy = .fault → execWith p rnd (.drw x y n) s = exec (.drw x y n) s) ∧
    (p.addrPolicy = .mask → ∃ t, execWith p rnd (.drw x y n) s = .next t ∧
      (∀ px py, px < 64 → py < 32 →
        t.fb.pixel px py = (s.fb.pixel px py != spriteBitAt (· % 4096) s x y n px py)) ∧
      (t.getV VF = 1 ∨ t.getV VF = 0) ∧
      (t.getV VF = 1 ↔ ∃ px py, px < 64 ∧ py < 32 ∧ s.fb.pixel px py = true ∧
        spriteBitAt (· % 4096) s x y n px py = true) ∧
      RegsBut [VF] s t ∧ t.pc = s.pc + 2 ∧ SameBut [.regs, .fb, .pc] s t)

/-- R94: two draws in a row XOR the sprite twice, the second at the coordinates it reads then. With the coordinates not
in VF, which the first draw writes, they restore the framebuffer, and the second draw sets VF exactly if the sprite has a
1 bit on a pixel that was off before the first (by the rule's loop; on a pixel that was on, the first draw turns it off
and the second on again, with no collision: notes/assumptions/14.md). -/
def Obligations.DrawingTwiceRestoresTheScreen : Prop :=
  ∀ (x y : Reg) (n : Count) (s : State), (n.val = 0 ∨ s.I.toNat + n.val ≤ 0x1000) →
    ∃ t u, exec (.drw x y n) s = .next t ∧ exec (.drw x y n) t = .next u ∧
      (∀ px py, px < 64 → py < 32 →
        u.fb.pixel px py = ((s.fb.pixel px py != spriteBit s x y n px py) != spriteBit t x y n px py)) ∧
      (x ≠ VF → y ≠ VF →
        (∀ px py, u.fb.pixel px py = s.fb.pixel px py) ∧
        (u.getV VF = 1 ↔
          ∃ px py, px < 64 ∧ py < 32 ∧ spriteBit s x y n px py = true ∧ s.fb.pixel px py = false))

/-! ### Keys and timers -/

/-- R95 to R97: the key skips compare the latch with all 8 bits of Vx; no key never skips EX9E and always EXA1. -/
def Obligations.KeySkipsCompareTheLatch : Prop :=
  ∀ (x : Reg) (s : State),
    (decode (BitVec.ofNat 16 (0xE09E + x.val * 0x100)) = .ok (.skp x) ∧
      ∃ t, exec (.skp x) s = .next t ∧
        (∀ k, s.key = some k → k.val = (s.getV x).toNat → t.pc = s.pc + 4) ∧
        ((∀ k, s.key = some k → k.val ≠ (s.getV x).toNat) → t.pc = s.pc + 2) ∧ SameBut [.pc] s t) ∧
    (decode (BitVec.ofNat 16 (0xE0A1 + x.val * 0x100)) = .ok (.sknp x) ∧
      ∃ t, exec (.sknp x) s = .next t ∧
        (∀ k, s.key = some k → k.val = (s.getV x).toNat → t.pc = s.pc + 2) ∧
        ((∀ k, s.key = some k → k.val ≠ (s.getV x).toNat) → t.pc = s.pc + 4) ∧ SameBut [.pc] s t)

/-- R98: with no key the engine waits and nothing but the status changes; with a key Vx takes it and pc advances. -/
def Obligations.WaitForKeyWaitsOrTakesTheKey : Prop :=
  ∀ (x : Reg) (s : State),
    decode (BitVec.ofNat 16 (0xF00A + x.val * 0x100)) = .ok (.ldVxK x) ∧
    (s.key = none → ∃ t, exec (.ldVxK x) s = .next t ∧ t.status = .awaitingKey ∧ SameBut [.status] s t) ∧
    ∀ k : Key, s.key = some k → ∃ t, exec (.ldVxK x) s = .next t ∧ (t.getV x).toNat = k.val ∧ RegsBut [x] s t ∧
      t.status = .running ∧ t.pc = s.pc + 2 ∧ SameBut [.regs, .status, .pc] s t

/-- R99 to R101: the timer read and the two timer writes. -/
def Obligations.TimerTransfers : Prop :=
  ∀ (x : Reg) (s : State),
    (decode (BitVec.ofNat 16 (0xF007 + x.val * 0x100)) = .ok (.ldVxDT x) ∧
      ∃ t, exec (.ldVxDT x) s = .next t ∧ t.getV x = s.DT ∧ RegisterOnly [x] s t) ∧
    (decode (BitVec.ofNat 16 (0xF015 + x.val * 0x100)) = .ok (.ldDTVx x) ∧
      ∃ t, exec (.ldDTVx x) s = .next t ∧ t.DT = s.getV x ∧ t.pc = s.pc + 2 ∧ SameBut [.DT, .pc] s t) ∧
    (decode (BitVec.ofNat 16 (0xF018 + x.val * 0x100)) = .ok (.ldSTVx x) ∧
      ∃ t, exec (.ldSTVx x) s = .next t ∧ t.ST = s.getV x ∧ t.pc = s.pc + 2 ∧ SameBut [.ST, .pc] s t)

/-! ### Host transactions -/

/-- R109: Tick counts both timers down to 0, and has no effect while halted. -/
def Obligations.TickCountsBothTimersDown : Prop :=
  ∀ (p : Params) (s : State),
    (s.status = .halted → transact p .tick s = .next s) ∧
    (s.status ≠ .halted → ∃ t, transact p .tick s = .next t ∧ t.DT.toNat = s.DT.toNat - 1 ∧
      t.ST.toNat = s.ST.toNat - 1 ∧ SameBut [.DT, .ST] s t)

/-- R35, R120: what Reset leaves, at any legal FONT_BASE: everything zeroed, pc 0x200, status Running, no error, the
font, the ROM verbatim, 0 in every other byte, the key latch not touched. A longer ROM is refused (R107). -/
def Obligations.ResetRecreatesTheState : Prop :=
  ∀ (p : Params) (rom : List Byte) (s : State), p.legal →
    (rom.length ≤ 3584 → ∃ t, transact p (.reset rom) s = .next t ∧
      (∀ r, t.getV r = 0) ∧ t.I = 0 ∧ t.pc = 0x200 ∧ t.sp = 0 ∧ (∀ j, j < 16 → t.stack[j]? = some 0) ∧
      t.DT = 0 ∧ t.ST = 0 ∧ (∀ px py, t.fb.pixel px py = false) ∧ t.status = .running ∧ t.err = none ∧
      t.key = s.key ∧
      (∀ d r, d < 16 → r < 5 → t.mem.read (p.fontBase + 5 * d + r) = (fontGlyphs.getD d []).getD r 0) ∧
      (∀ k, (h : k < rom.length) → t.mem.read (0x200 + k) = rom[k]) ∧
      (∀ a, a < 0x1000 → ¬ (p.fontBase ≤ a ∧ a < p.fontBase + 80) → ¬ (0x200 ≤ a ∧ a < 0x200 + rom.length) →
        t.mem.read a = 0)) ∧
    (3584 < rom.length → transact p (.reset rom) s = .refused (.romTooLarge rom.length))

/-- R35, R121: State.reset is what power-up with an empty ROM leaves, for the key latch at its free value. -/
def Obligations.PowerUpLeavesTheResetState : Prop :=
  ∀ latch : Option Key, powerUp Params.hardware latch [] = .next { State.reset with key := latch }

/-- R113, R114, R110: SetKey writes the latch and nothing else and is refused for a code over 15; pixel answers the
framebuffer in range and is refused out of range; sound_active is ST != 0; a query changes nothing. -/
def Obligations.KeyAndQueriesOfTheHost : Prop :=
  ∀ (p : Params) (s : State),
    transact p (.setKey none) s = .next { s with key := none } ∧
    (∀ k : Key, transact p (.setKey (some k.val)) s = .next { s with key := some k }) ∧
    (∀ c, 16 ≤ c → transact p (.setKey (some c)) s = .refused (.keyOutOfRange c)) ∧
    (∀ px py, px < 64 → py < 32 → transact p (.pixel px py) s = .next s ∧
      answer (.pixel px py) s = .bit (s.fb.pixel px py)) ∧
    (∀ px py, (64 ≤ px ∨ 32 ≤ py) → transact p (.pixel px py) s = .refused (.pixelOutOfRange px py)) ∧
    transact p .soundActive s = .next s ∧ (answer .soundActive s = .bit true ↔ s.ST.toNat ≠ 0) ∧
    transact p .readState s = .next s ∧ answer .readState s = .state s
end

