-- ==== Sys2Proof/Laws/State.lean ====
section
/-! SUPPORT. One lemma per field per update of State, each true by rfl, and what a register read gives after a
register write. -/

namespace Sys2Proof.Machine

/-! ### setV -/

@[simp] theorem State.setV_V (s : State) (r : Reg) (v : Byte) : (s.setV r v).V = s.V.set r v := rfl
@[simp] theorem State.setV_I (s : State) (r : Reg) (v : Byte) : (s.setV r v).I = s.I := rfl
@[simp] theorem State.setV_pc (s : State) (r : Reg) (v : Byte) : (s.setV r v).pc = s.pc := rfl
@[simp] theorem State.setV_sp (s : State) (r : Reg) (v : Byte) : (s.setV r v).sp = s.sp := rfl
@[simp] theorem State.setV_stack (s : State) (r : Reg) (v : Byte) : (s.setV r v).stack = s.stack := rfl
@[simp] theorem State.setV_DT (s : State) (r : Reg) (v : Byte) : (s.setV r v).DT = s.DT := rfl
@[simp] theorem State.setV_ST (s : State) (r : Reg) (v : Byte) : (s.setV r v).ST = s.ST := rfl
@[simp] theorem State.setV_mem (s : State) (r : Reg) (v : Byte) : (s.setV r v).mem = s.mem := rfl
@[simp] theorem State.setV_fb (s : State) (r : Reg) (v : Byte) : (s.setV r v).fb = s.fb := rfl
@[simp] theorem State.setV_status (s : State) (r : Reg) (v : Byte) : (s.setV r v).status = s.status := rfl
@[simp] theorem State.setV_err (s : State) (r : Reg) (v : Byte) : (s.setV r v).err = s.err := rfl
@[simp] theorem State.setV_key (s : State) (r : Reg) (v : Byte) : (s.setV r v).key = s.key := rfl
@[simp] theorem State.setV_draws (s : State) (r : Reg) (v : Byte) : (s.setV r v).draws = s.draws := rfl

/-! ### setVFlag -/

@[simp] theorem State.setVFlag_V (s : State) (x : Reg) (rf : Byte × Byte) : (s.setVFlag x rf).V = (s.V.set x rf.1).set VF rf.2 := rfl
@[simp] theorem State.setVFlag_I (s : State) (x : Reg) (rf : Byte × Byte) : (s.setVFlag x rf).I = s.I := rfl
@[simp] theorem State.setVFlag_pc (s : State) (x : Reg) (rf : Byte × Byte) : (s.setVFlag x rf).pc = s.pc := rfl
@[simp] theorem State.setVFlag_sp (s : State) (x : Reg) (rf : Byte × Byte) : (s.setVFlag x rf).sp = s.sp := rfl
@[simp] theorem State.setVFlag_stack (s : State) (x : Reg) (rf : Byte × Byte) : (s.setVFlag x rf).stack = s.stack := rfl
@[simp] theorem State.setVFlag_DT (s : State) (x : Reg) (rf : Byte × Byte) : (s.setVFlag x rf).DT = s.DT := rfl
@[simp] theorem State.setVFlag_ST (s : State) (x : Reg) (rf : Byte × Byte) : (s.setVFlag x rf).ST = s.ST := rfl
@[simp] theorem State.setVFlag_mem (s : State) (x : Reg) (rf : Byte × Byte) : (s.setVFlag x rf).mem = s.mem := rfl
@[simp] theorem State.setVFlag_fb (s : State) (x : Reg) (rf : Byte × Byte) : (s.setVFlag x rf).fb = s.fb := rfl
@[simp] theorem State.setVFlag_status (s : State) (x : Reg) (rf : Byte × Byte) : (s.setVFlag x rf).status = s.status := rfl
@[simp] theorem State.setVFlag_err (s : State) (x : Reg) (rf : Byte × Byte) : (s.setVFlag x rf).err = s.err := rfl
@[simp] theorem State.setVFlag_key (s : State) (x : Reg) (rf : Byte × Byte) : (s.setVFlag x rf).key = s.key := rfl
@[simp] theorem State.setVFlag_draws (s : State) (x : Reg) (rf : Byte × Byte) : (s.setVFlag x rf).draws = s.draws := rfl

/-! ### advance -/

@[simp] theorem State.advance_V (s : State) (d : Word) : (s.advance d).V = s.V := rfl
@[simp] theorem State.advance_I (s : State) (d : Word) : (s.advance d).I = s.I := rfl
@[simp] theorem State.advance_pc (s : State) (d : Word) : (s.advance d).pc = s.pc + d := rfl
@[simp] theorem State.advance_sp (s : State) (d : Word) : (s.advance d).sp = s.sp := rfl
@[simp] theorem State.advance_stack (s : State) (d : Word) : (s.advance d).stack = s.stack := rfl
@[simp] theorem State.advance_DT (s : State) (d : Word) : (s.advance d).DT = s.DT := rfl
@[simp] theorem State.advance_ST (s : State) (d : Word) : (s.advance d).ST = s.ST := rfl
@[simp] theorem State.advance_mem (s : State) (d : Word) : (s.advance d).mem = s.mem := rfl
@[simp] theorem State.advance_fb (s : State) (d : Word) : (s.advance d).fb = s.fb := rfl
@[simp] theorem State.advance_status (s : State) (d : Word) : (s.advance d).status = s.status := rfl
@[simp] theorem State.advance_err (s : State) (d : Word) : (s.advance d).err = s.err := rfl
@[simp] theorem State.advance_key (s : State) (d : Word) : (s.advance d).key = s.key := rfl
@[simp] theorem State.advance_draws (s : State) (d : Word) : (s.advance d).draws = s.draws := rfl

/-! ### skipIf -/

@[simp] theorem State.skipIf_V (s : State) (b : Bool) : (s.skipIf b).V = s.V := rfl
@[simp] theorem State.skipIf_I (s : State) (b : Bool) : (s.skipIf b).I = s.I := rfl
@[simp] theorem State.skipIf_pc (s : State) (b : Bool) : (s.skipIf b).pc = s.pc + (if b then 4 else 2) := rfl
@[simp] theorem State.skipIf_sp (s : State) (b : Bool) : (s.skipIf b).sp = s.sp := rfl
@[simp] theorem State.skipIf_stack (s : State) (b : Bool) : (s.skipIf b).stack = s.stack := rfl
@[simp] theorem State.skipIf_DT (s : State) (b : Bool) : (s.skipIf b).DT = s.DT := rfl
@[simp] theorem State.skipIf_ST (s : State) (b : Bool) : (s.skipIf b).ST = s.ST := rfl
@[simp] theorem State.skipIf_mem (s : State) (b : Bool) : (s.skipIf b).mem = s.mem := rfl
@[simp] theorem State.skipIf_fb (s : State) (b : Bool) : (s.skipIf b).fb = s.fb := rfl
@[simp] theorem State.skipIf_status (s : State) (b : Bool) : (s.skipIf b).status = s.status := rfl
@[simp] theorem State.skipIf_err (s : State) (b : Bool) : (s.skipIf b).err = s.err := rfl
@[simp] theorem State.skipIf_key (s : State) (b : Bool) : (s.skipIf b).key = s.key := rfl
@[simp] theorem State.skipIf_draws (s : State) (b : Bool) : (s.skipIf b).draws = s.draws := rfl

/-! ### noteDraw -/

@[simp] theorem State.noteDraw_V (s : State) : (s.noteDraw).V = s.V := rfl
@[simp] theorem State.noteDraw_I (s : State) : (s.noteDraw).I = s.I := rfl
@[simp] theorem State.noteDraw_pc (s : State) : (s.noteDraw).pc = s.pc := rfl
@[simp] theorem State.noteDraw_sp (s : State) : (s.noteDraw).sp = s.sp := rfl
@[simp] theorem State.noteDraw_stack (s : State) : (s.noteDraw).stack = s.stack := rfl
@[simp] theorem State.noteDraw_DT (s : State) : (s.noteDraw).DT = s.DT := rfl
@[simp] theorem State.noteDraw_ST (s : State) : (s.noteDraw).ST = s.ST := rfl
@[simp] theorem State.noteDraw_mem (s : State) : (s.noteDraw).mem = s.mem := rfl
@[simp] theorem State.noteDraw_fb (s : State) : (s.noteDraw).fb = s.fb := rfl
@[simp] theorem State.noteDraw_status (s : State) : (s.noteDraw).status = s.status := rfl
@[simp] theorem State.noteDraw_err (s : State) : (s.noteDraw).err = s.err := rfl
@[simp] theorem State.noteDraw_key (s : State) : (s.noteDraw).key = s.key := rfl
@[simp] theorem State.noteDraw_draws (s : State) : (s.noteDraw).draws = s.draws + 1 := rfl

/-! ### raise -/

@[simp] theorem State.raise_V (s : State) (op : Option Word) (r : Raised) : (s.raise op r).V = s.V := rfl
@[simp] theorem State.raise_I (s : State) (op : Option Word) (r : Raised) : (s.raise op r).I = s.I := rfl
@[simp] theorem State.raise_pc (s : State) (op : Option Word) (r : Raised) : (s.raise op r).pc = s.pc := rfl
@[simp] theorem State.raise_sp (s : State) (op : Option Word) (r : Raised) : (s.raise op r).sp = s.sp := rfl
@[simp] theorem State.raise_stack (s : State) (op : Option Word) (r : Raised) : (s.raise op r).stack = s.stack := rfl
@[simp] theorem State.raise_DT (s : State) (op : Option Word) (r : Raised) : (s.raise op r).DT = s.DT := rfl
@[simp] theorem State.raise_ST (s : State) (op : Option Word) (r : Raised) : (s.raise op r).ST = s.ST := rfl
@[simp] theorem State.raise_mem (s : State) (op : Option Word) (r : Raised) : (s.raise op r).mem = s.mem := rfl
@[simp] theorem State.raise_fb (s : State) (op : Option Word) (r : Raised) : (s.raise op r).fb = s.fb := rfl
@[simp] theorem State.raise_status (s : State) (op : Option Word) (r : Raised) : (s.raise op r).status = .halted := rfl
@[simp] theorem State.raise_err (s : State) (op : Option Word) (r : Raised) : (s.raise op r).err = some ⟨r.cause, op, s.pc, r.addr⟩ := rfl
@[simp] theorem State.raise_key (s : State) (op : Option Word) (r : Raised) : (s.raise op r).key = s.key := rfl
@[simp] theorem State.raise_draws (s : State) (op : Option Word) (r : Raised) : (s.raise op r).draws = s.draws := rfl

/-! ### Register reads -/

theorem State.getV_setV (s : State) (r q : Reg) (v : Byte) :
    (s.setV r v).getV q = if r = q then v else s.getV q := by
  simp [State.getV, State.setV, Vector.getElem_set, Fin.ext_iff]

@[simp] theorem State.getV_setV_self (s : State) (r : Reg) (v : Byte) : (s.setV r v).getV r = v := by
  simp [State.getV_setV]

theorem State.getV_setV_of_ne (s : State) (r q : Reg) (v : Byte) (h : r ≠ q) :
    (s.setV r v).getV q = s.getV q := by
  simp [State.getV_setV, h]

/-- VF is written last (R72): it holds the flag even if it is the destination. -/
theorem State.getV_setVFlag (s : State) (x q : Reg) (rf : Byte × Byte) :
    (s.setVFlag x rf).getV q = if q = VF then rf.2 else if q = x then rf.1 else s.getV q := by
  simp only [State.setVFlag, State.getV_setV, eq_comm]

@[simp] theorem State.getV_advance (s : State) (d : Word) (r : Reg) : (s.advance d).getV r = s.getV r := rfl
@[simp] theorem State.getV_skipIf (s : State) (b : Bool) (r : Reg) : (s.skipIf b).getV r = s.getV r := rfl
@[simp] theorem State.getV_noteDraw (s : State) (r : Reg) : s.noteDraw.getV r = s.getV r := rfl
@[simp] theorem State.getV_raise (s : State) (op : Option Word) (r : Raised) (q : Reg) :
    (s.raise op r).getV q = s.getV q := rfl

/-- A register reads the same wherever V is the same. -/
theorem State.getV_of_V_eq {s t : State} (h : t.V = s.V) (r : Reg) : t.getV r = s.getV r := by
  simp only [State.getV, h]

/-! ### Operations that may change one field -/

/-- `bumpI` writes nothing but I. -/
theorem State.bumpI_eq (s : State) (p : Params) (n : Nat) :
    s.bumpI p n = { s with I := if p.lsIncrementI then s.I + BitVec.ofNat 16 n else s.I } := by
  unfold State.bumpI; split <;> rfl

/-- This hardware leaves I alone (`LS_INCREMENT_I = false`). -/
@[simp] theorem State.bumpI_hardware (s : State) (n : Nat) : s.bumpI Params.hardware n = s := rfl

/-- `setVFrom` writes nothing but V. -/
theorem State.setVFrom_eq (bs : List Byte) : ∀ (s : State) (k : Nat),
    s.setVFrom k bs = { s with V := (s.setVFrom k bs).V } := by
  induction bs with
  | nil => intro s k; rfl
  | cons b bs ih => intro s k; rw [State.setVFrom, ih]

/-- The registers `k` to `k + bs.length - 1` take the bytes, the others keep their value (R92). -/
theorem State.getV_setVFrom (bs : List Byte) : ∀ (s : State) (k : Nat) (q : Reg),
    (s.setVFrom k bs).getV q = if k ≤ q.val then bs.getD (q.val - k) (s.getV q) else s.getV q := by
  induction bs with
  | nil => intro s k q; simp [State.setVFrom]
  | cons b bs ih =>
    intro s k q
    rw [State.setVFrom, ih]
    have hg : State.getV { s with V := s.V.setIfInBounds k b } q = if k = q.val then b else s.getV q := by
      simp [State.getV, Vector.getElem_setIfInBounds]
    rw [hg]
    rcases Nat.lt_trichotomy k q.val with h | h | h
    · have e : q.val - k = (q.val - (k + 1)) + 1 := by omega
      rw [if_pos (by omega), if_neg (by omega), if_pos (by omega), e, List.getD_cons_succ]
    · subst h; simp
    · rw [if_neg (by omega), if_neg (by omega), if_neg (by omega)]

end Sys2Proof.Machine
end

