-- ==== Sys2Proof/Laws/Memory.lean ====
section
/-! SUPPORT. Memory: a read after a write, and that every memory operation keeps the canonical form. -/

namespace Sys2Proof.Machine

/-! ### Reading -/

@[simp] theorem Memory.read_nil (a : Nat) : Memory.read [] a = Memory.resetByte a := rfl

/-- An address below every listed one reads as the reset contents give. -/
theorem Memory.read_of_below (m : Memory) (a : Nat) (h : ∀ c ∈ m, a < c.1) : m.read a = Memory.resetByte a := by
  induction m with
  | nil => rfl
  | cons c m ih =>
    have hc := h c (by simp)
    have e : ¬ c.1 = a := by omega
    simp only [Memory.read, e, if_false]
    exact ih fun d hd => h d (by simp [hd])

/-! ### The canonical form -/

theorem Memory.wf_nil : Memory.wf ([] : Memory) := by simp [Memory.wf]

theorem Memory.wf_tail {c : Host.Cell} {m : Memory} (h : Memory.wf (c :: m)) : m.wf :=
  ⟨(List.pairwise_cons.mp h.1).2, fun d hd => h.2 d (by simp [hd])⟩

theorem Memory.wf_head {c : Host.Cell} {m : Memory} (h : Memory.wf (c :: m)) : ∀ d ∈ m, c.1 < d.1 :=
  (List.pairwise_cons.mp h.1).1

theorem Memory.wf_cons {c : Host.Cell} {m : Memory} (hm : m.wf) (hlt : ∀ d ∈ m, c.1 < d.1)
    (hc : c.1 < Config.memSize ∧ c.2 ≠ Memory.resetByte c.1) : Memory.wf (c :: m) := by
  refine ⟨List.pairwise_cons.mpr ⟨hlt, hm.1⟩, fun d hd => ?_⟩
  rcases List.mem_cons.mp hd with rfl | h
  · exact hc
  · exact hm.2 d h

/-- What a write lists was listed before, or is the written cell. -/
theorem Memory.mem_write {m : Memory} {a : Nat} {v : Byte} {c : Host.Cell} (h : c ∈ m.write a v) :
    c ∈ m ∨ c = (a, v) := by
  induction m with
  | nil => simp only [Memory.write] at h; split at h <;> simp_all
  | cons d m ih =>
    simp only [Memory.write] at h
    split at h
    · split at h <;> simp_all; tauto
    · split at h
      · split at h
        · exact .inl (by simp [h])
        · rcases List.mem_cons.mp h with h | h <;> simp [h]
      · rcases List.mem_cons.mp h with h | h
        · simp [h]
        · rcases ih h with h | h <;> simp [h]

/-- A write inside memory keeps the canonical form. -/
theorem Memory.write_wf {m : Memory} (hm : m.wf) (a : Nat) (v : Byte) (ha : a < Config.memSize) :
    (m.write a v).wf := by
  induction m with
  | nil =>
    simp only [Memory.write]
    split
    · exact Memory.wf_nil
    · exact Memory.wf_cons Memory.wf_nil (by simp) ⟨ha, by assumption⟩
  | cons c m ih =>
    have ht := Memory.wf_tail hm
    have hh := Memory.wf_head hm
    have hc := hm.2 c (by simp)
    simp only [Memory.write]
    split
    · rename_i hlt
      split
      · exact hm
      · refine Memory.wf_cons hm (fun d hd => ?_) ⟨ha, by assumption⟩
        rcases List.mem_cons.mp hd with rfl | h
        · exact hlt
        · exact lt_trans hlt (hh d h)
    · rename_i hge
      split
      · rename_i e
        split
        · exact ht
        · exact Memory.wf_cons ht (fun d hd => by simpa [e] using hh d hd) ⟨ha, by assumption⟩
      · rename_i hne
        refine Memory.wf_cons (ih ht) (fun d hd => ?_) hc
        rcases Memory.mem_write hd with h | h
        · exact hh d h
        · subst h; simp only; omega

/-- A read after a write: the value written at its address, the old value at every other. -/
theorem Memory.read_write {m : Memory} (hm : m.wf) (a : Nat) (v : Byte) (b : Nat) :
    (m.write a v).read b = if b = a then v else m.read b := by
  induction m with
  | nil =>
    simp only [Memory.write]
    split
    · rename_i hv; split
      · rename_i e; simp [e, hv]
      · rfl
    · simp only [Memory.read, eq_comm]
  | cons c m ih =>
    have ht := Memory.wf_tail hm
    have hh := Memory.wf_head hm
    simp only [Memory.write]
    split
    · rename_i hlt
      split
      · rename_i hv
        split
        · rename_i e
          rw [e, hv]
          refine Memory.read_of_below _ _ fun d hd => ?_
          rcases List.mem_cons.mp hd with rfl | h
          · exact hlt
          · exact lt_trans hlt (hh d h)
        · rfl
      · simp only [Memory.read, eq_comm]
    · rename_i hge
      split
      · rename_i e
        split
        · rename_i hv
          split
          · rename_i e'
            rw [e', hv]
            exact Memory.read_of_below _ _ fun d hd => by simpa [e] using hh d hd
          · rename_i hne
            have : ¬ c.1 = b := fun x => hne (by omega)
            simp [Memory.read, this]
        · simp only [Memory.read]
          by_cases hb : b = a
          · simp [hb]
          · have h1 : ¬ a = b := fun x => hb x.symm
            have h2 : ¬ c.1 = b := fun x => hb (by omega)
            simp [hb, h1, h2]
      · rename_i hne
        simp only [Memory.read, ih ht]
        by_cases hb : c.1 = b
        · have : ¬ b = a := by omega
          simp [hb, this]
        · simp [hb]

/-! ### Several writes -/

/-- Writes inside memory keep the canonical form. -/
theorem Memory.writeAll_wf (ws : List (Nat × Byte)) : ∀ {m : Memory}, m.wf → (∀ w ∈ ws, w.1 < Config.memSize) →
    (m.writeAll ws).wf := by
  induction ws with
  | nil => intro m hm _; exact hm
  | cons w ws ih =>
    intro m hm h
    exact ih (Memory.write_wf hm w.1 w.2 (h w (by simp))) fun u hu => h u (by simp [hu])

/-- An address that no write names reads as before. -/
theorem Memory.read_writeAll_of_not_mem (ws : List (Nat × Byte)) (b : Nat) : ∀ {m : Memory}, m.wf →
    (∀ w ∈ ws, w.1 < Config.memSize) → (∀ w ∈ ws, w.1 ≠ b) → (m.writeAll ws).read b = m.read b := by
  induction ws with
  | nil => intro m _ _ _; rfl
  | cons w ws ih =>
    intro m hm hr h
    have hw := Memory.write_wf hm w.1 w.2 (hr w (by simp))
    rw [Memory.writeAll, ih hw (fun u hu => hr u (by simp [hu])) fun u hu => h u (by simp [hu]), Memory.read_write hm,
      if_neg (Ne.symm (h w (by simp)))]

/-- Bytes written at distinct addresses read back. -/
theorem Memory.read_writeAll_zip (ms : List Nat) : ∀ {m : Memory} (vs : List Byte), m.wf →
    (∀ a ∈ ms, a < Config.memSize) → ms.Nodup → ∀ (k : Nat) (hk : k < ms.length) (hv : k < vs.length),
    (m.writeAll (ms.zip vs)).read ms[k] = vs[k] := by
  induction ms with
  | nil => intro m vs _ _ _ k hk; cases hk
  | cons a ms ih =>
    intro m vs hm hr hd k hk hv
    have ⟨ha, hd⟩ := List.nodup_cons.mp hd
    have hr' : ∀ b ∈ ms, b < Config.memSize := fun b hb => hr b (by simp [hb])
    cases vs with
    | nil => cases hv
    | cons v vs =>
      have hw := Memory.write_wf hm a v (hr a (by simp))
      simp only [List.zip_cons_cons, Memory.writeAll]
      cases k with
      | zero =>
        simp only [List.getElem_cons_zero]
        rw [Memory.read_writeAll_of_not_mem _ _ hw (fun w h => hr' _ (List.of_mem_zip h).1)
          fun w h e => ha (by rw [← e]; exact (List.of_mem_zip h).1), Memory.read_write hm, if_pos rfl]
      | succ k => simpa using ih vs hw hr' hd k (by simpa using hk) (by simpa using hv)

/-- The bytes `vs` written at `a`, `a + 1`, ... read back, and every other address reads as before. -/
theorem Memory.read_writeFrom (vs : List Byte) : ∀ {m : Memory} (a b : Nat), m.wf → a + vs.length ≤ Config.memSize →
    (m.writeFrom a vs).read b = if a ≤ b then vs.getD (b - a) (m.read b) else m.read b := by
  induction vs with
  | nil => intro m a b _ _; simp [Memory.writeFrom, Memory.writeAll]
  | cons v vs ih =>
    intro m a b hm ha
    simp only [List.length_cons] at ha
    have hstep : m.writeFrom a (v :: vs) = (m.write a v).writeFrom (a + 1) vs := by
      simp [Memory.writeFrom, List.range'_succ, Memory.writeAll]
    rw [hstep, ih (a + 1) b (Memory.write_wf hm a v (by simp only [Config.memSize] at *; omega)) (by omega),
      Memory.read_write hm]
    rcases Nat.lt_trichotomy a b with h | h | h
    · have e : b - a = (b - (a + 1)) + 1 := by omega
      rw [if_pos (by omega), if_neg (by omega), if_pos (by omega), e, List.getD_cons_succ]
    · subst h; simp
    · rw [if_neg (by omega), if_neg (by omega), if_neg (by omega)]

/-- Bytes written inside memory keep the canonical form. -/
theorem Memory.writeFrom_wf {m : Memory} (hm : m.wf) (a : Nat) (vs : List Byte) (h : a + vs.length ≤ Config.memSize) :
    (m.writeFrom a vs).wf := by
  refine Memory.writeAll_wf _ hm fun w hw => ?_
  have := (List.of_mem_zip hw).1
  simp only [List.mem_range'_1] at this
  omega

end Sys2Proof.Machine
end

