-- ==== Sys2Proof/Laws/Ops.lean ====
section
/-! SUPPORT. What each shared operation can do, said once: address resolution, write protection, an instruction with
checks, the framebuffer, and the fetch-decode-execute cycle. -/

namespace Sys2Proof.Machine

/-! ### Addr (R14, R43) -/

theorem resolve_inRange (p : Params) {a : Nat} (h : a ≤ 0xFFF) : resolve p a = .ok a := by
  simp [resolve, h]

theorem resolve_fault {p : Params} (hp : p.addrPolicy = .fault) {a : Nat} (h : 0xFFF < a) :
    resolve p a = .error ⟨.addressOutOfRange, some a⟩ := by
  have : ¬ a ≤ 0xFFF := by omega
  simp [resolve, this, hp]

theorem resolve_mask {p : Params} (hp : p.addrPolicy = .mask) (a : Nat) : resolve p a = .ok (a % 4096) := by
  unfold resolve
  split
  · rw [Nat.mod_eq_of_lt (by omega)]
  · simp [hp]

/-- A resolved address is inside memory. -/
theorem resolve_lt {p : Params} {a m : Nat} (h : resolve p a = .ok m) : m < Config.memSize := by
  unfold resolve at h
  split at h
  · injection h with h; subst h; simp only [Config.memSize]; omega
  · split at h
    · injection h with h; subst h; exact Nat.mod_lt _ (by decide)
    · cases h

/-- The one error of resolution: AddressOutOfRange at an address of 0x1000 or more, under `fault`. -/
theorem resolve_error {p : Params} {a : Nat} {r : Raised} (h : resolve p a = .error r) :
    p.addrPolicy = .fault ∧ 0xFFF < a ∧ r = ⟨.addressOutOfRange, some a⟩ := by
  unfold resolve at h
  split at h
  · cases h
  · split at h
    · cases h
    · injection h with h; exact ⟨by assumption, by omega, h.symm⟩

theorem resolveRange_inRange (p : Params) : ∀ {base n : Nat}, base + n ≤ 0x1000 →
    resolveRange p base n = .ok (List.range' base n) := by
  intro base n
  induction n generalizing base with
  | zero => intro _; rfl
  | succ n ih =>
    intro h
    simp only [resolveRange, resolve_inRange p (show base ≤ 0xFFF by omega), ih (show base + 1 + n ≤ 0x1000 by omega),
      List.range'_succ]

/-- Out of range under `fault`: the smallest offending address is the one reported (R105). -/
theorem resolveRange_fault {p : Params} (hp : p.addrPolicy = .fault) : ∀ {base n : Nat}, 0x1000 < base + n → 0 < n →
    resolveRange p base n = .error ⟨.addressOutOfRange, some (max base 0x1000)⟩ := by
  intro base n
  induction n generalizing base with
  | zero => intro _ h; omega
  | succ n ih =>
    intro h _
    by_cases hb : base ≤ 0xFFF
    · simp only [resolveRange, resolve_inRange p hb, ih (show 0x1000 < base + 1 + n by omega) (by omega)]
      rw [Nat.max_eq_right (by omega), Nat.max_eq_right (by omega)]
    · simp only [resolveRange, resolve_fault hp (show 0xFFF < base by omega)]
      rw [Nat.max_eq_left (by omega)]

theorem resolveRange_mask {p : Params} (hp : p.addrPolicy = .mask) : ∀ (base n : Nat),
    resolveRange p base n = .ok ((List.range' base n).map (· % 4096)) := by
  intro base n
  induction n generalizing base with
  | zero => rfl
  | succ n ih => simp only [resolveRange, resolve_mask hp, ih, List.range'_succ, List.map_cons]

/-- Resolved addresses are inside memory, one for each offset. -/
theorem resolveRange_ok {p : Params} : ∀ {base n : Nat} {ms : List Nat}, resolveRange p base n = .ok ms →
    ms.length = n ∧ ∀ m ∈ ms, m < Config.memSize := by
  intro base n
  induction n generalizing base with
  | zero => intro ms h; simp only [resolveRange, Except.ok.injEq] at h; subst h; simp
  | succ n ih =>
    intro ms h
    simp only [resolveRange] at h
    split at h
    · cases h
    · rename_i m hm
      split at h
      · cases h
      · rename_i ms' hms
        injection h with h; subst h
        have ⟨hl, hb⟩ := ih hms
        refine ⟨by simp [hl], fun k hk => ?_⟩
        rcases List.mem_cons.mp hk with rfl | hk
        · exact resolve_lt hm
        · exact hb k hk

/-- The one error of a range (R105). -/
theorem resolveRange_error {p : Params} {base n : Nat} {r : Raised} (h : resolveRange p base n = .error r) :
    p.addrPolicy = .fault ∧ 0x1000 < base + n ∧ 0 < n ∧ r = ⟨.addressOutOfRange, some (max base 0x1000)⟩ := by
  by_cases hr : base + n ≤ 0x1000
  · rw [resolveRange_inRange p hr] at h; cases h
  · cases hp : p.addrPolicy with
    | mask => rw [resolveRange_mask hp] at h; cases h
    | fault =>
      by_cases hn : 0 < n
      · rw [resolveRange_fault hp (by omega) hn] at h
        injection h with h; exact ⟨rfl, by omega, hn, h.symm⟩
      · have : n = 0 := by omega
        subst this; cases h

/-! ### Write protection (R44) -/

theorem protect_allowed (p : Params) : ∀ {ms : List Nat}, (∀ m ∈ ms, 0x200 ≤ m) → protect p ms = .ok () := by
  intro ms
  induction ms with
  | nil => intro _; rfl
  | cons m ms ih =>
    intro h
    have hm : ¬ m < 0x200 := by have := h m (by simp); omega
    simp only [protect, hm, false_and, if_false]
    exact ih fun k hk => h k (by simp [hk])

theorem protect_off {p : Params} (hp : p.lowWritePolicy = .allow) : ∀ ms : List Nat, protect p ms = .ok () := by
  intro ms
  induction ms with
  | nil => rfl
  | cons m ms ih => simp [protect, hp, ih]

/-- What the protection lets pass under `fault` is 0x200 or above. -/
theorem protect_ok {p : Params} (hp : p.lowWritePolicy = .fault) : ∀ {ms : List Nat}, protect p ms = .ok () →
    ∀ m ∈ ms, 0x200 ≤ m := by
  intro ms
  induction ms with
  | nil => intro _ m hm; cases hm
  | cons k ms ih =>
    intro h m hm
    simp only [protect, hp, and_true] at h
    split at h
    · cases h
    · rcases List.mem_cons.mp hm with rfl | hm
      · omega
      · exact ih h m hm

/-- The one error of the protection: ProtectedWrite at one of the addresses, below 0x200. -/
theorem protect_error {p : Params} : ∀ {ms : List Nat} {r : Raised}, protect p ms = .error r →
    p.lowWritePolicy = .fault ∧ ∃ m ∈ ms, m < 0x200 ∧ r = ⟨.protectedWrite, some m⟩ := by
  intro ms
  induction ms with
  | nil => intro r h; cases h
  | cons k ms ih =>
    intro r h
    simp only [protect] at h
    split at h
    · rename_i hk
      injection h with h
      exact ⟨hk.2, k, by simp, hk.1, h.symm⟩
    · have ⟨hp, m, hm, hlt, hr⟩ := ih h
      exact ⟨hp, m, by simp [hm], hlt, hr⟩

/-- Under `fault` the first address below 0x200 is the one reported (R105). -/
theorem protect_first {p : Params} (hp : p.lowWritePolicy = .fault) : ∀ {ms : List Nat} {k : Nat}
    (hk : k < ms.length), ms[k] < 0x200 → (∀ j (hj : j < k), 0x200 ≤ ms[j]) →
    protect p ms = .error ⟨.protectedWrite, some ms[k]⟩ := by
  intro ms
  induction ms with
  | nil => intro k hk; cases hk
  | cons m ms ih =>
    intro k hk hlt hb
    cases k with
    | zero => simp only [List.getElem_cons_zero] at hlt; simp [protect, hlt, hp]
    | succ k =>
      have hm : ¬ m < 0x200 := by have := hb 0 (by omega); simpa using this
      simp only [protect, hm, false_and, if_false, List.getElem_cons_succ]
      exact ih (by simpa using hk) (by simpa using hlt) fun j hj => by simpa using hb (j + 1) (by omega)

/-- A write inside 0x200 to 0xFFF meets no check. -/
theorem writeTargets_inRange (p : Params) {base n : Nat} (hl : 0x200 ≤ base) (hh : base + n ≤ 0x1000) :
    writeTargets p base n = .ok (List.range' base n) := by
  have : protect p (List.range' base n) = .ok () :=
    protect_allowed p fun m hm => by have := List.mem_range'_1.mp hm; omega
  simp only [writeTargets, resolveRange_inRange p hh, this]

/-- A write past the top raises AddressOutOfRange for the smallest offending address (R105). -/
theorem writeTargets_outOfRange {p : Params} (hp : p.addrPolicy = .fault) {base n : Nat} (h : 0x1000 < base + n)
    (hn : 0 < n) : writeTargets p base n = .error ⟨.addressOutOfRange, some (max base 0x1000)⟩ := by
  simp only [writeTargets, resolveRange_fault hp h hn]

/-- A write that begins below 0x200 raises ProtectedWrite for its first address (R105). -/
theorem writeTargets_protected {p : Params} (hp : p.lowWritePolicy = .fault) {base n : Nat} (hl : base < 0x200)
    (hn : 0 < n) (hh : base + n ≤ 0x1000) : writeTargets p base n = .error ⟨.protectedWrite, some base⟩ := by
  obtain ⟨n, rfl⟩ : ∃ k, n = k + 1 := ⟨n - 1, by omega⟩
  simp only [writeTargets, resolveRange_inRange p hh, List.range'_succ, protect, hl, hp, and_self, if_true]

/-- Write targets are inside memory, one for each byte, and 0x200 or above under the protection. -/
theorem writeTargets_ok {p : Params} {base n : Nat} {ms : List Nat} (h : writeTargets p base n = .ok ms) :
    ms.length = n ∧ (∀ m ∈ ms, m < Config.memSize) ∧ (p.lowWritePolicy = .fault → ∀ m ∈ ms, 0x200 ≤ m) := by
  unfold writeTargets at h
  split at h
  · cases h
  · rename_i ms' hr
    split at h
    · cases h
    · rename_i hp
      injection h with h; subst h
      exact ⟨(resolveRange_ok hr).1, (resolveRange_ok hr).2, fun hf => protect_ok hf hp⟩

/-- The errors of a data write (R102). -/
theorem writeTargets_error {p : Params} {base n : Nat} {r : Raised} (h : writeTargets p base n = .error r) :
    (p.addrPolicy = .fault ∧ 0x1000 < base + n ∧ r = ⟨.addressOutOfRange, some (max base 0x1000)⟩) ∨
    (p.lowWritePolicy = .fault ∧ ∃ m, m < 0x200 ∧ r = ⟨.protectedWrite, some m⟩) := by
  unfold writeTargets at h
  split at h
  · rename_i r' hr
    injection h with h; subst h
    have ⟨hp, hb, _, e⟩ := resolveRange_error hr
    exact .inl ⟨hp, hb, e⟩
  · split at h
    · rename_i r' hr
      injection h with h; subst h
      have ⟨hp, m, _, hm, e⟩ := protect_error hr
      exact .inr ⟨hp, m, hm, e⟩
    · cases h

/-! ### An instruction with checks (R15) -/

@[simp] theorem State.attempt_ok (s t : State) (i : Instr) : s.attempt i (.ok t) = .next t := rfl

@[simp] theorem State.attempt_error (s : State) (i : Instr) (r : Raised) :
    s.attempt i (.error r) = .next (s.raise (some (encode i)) r) := rfl

/-- An instruction with checks completes with the state they allow, or raises. -/
theorem State.attempt_next {s t : State} {i : Instr} {c : Except Raised State} (h : s.attempt i c = .next t) :
    c = .ok t ∨ ∃ r, c = .error r ∧ t = s.raise (some (encode i)) r := by
  cases c with
  | ok u => exact .inl (by simpa using h)
  | error r => exact .inr ⟨r, rfl, by simpa using h.symm⟩

/-! ### The framebuffer (R29) -/

@[simp] theorem Framebuffer.pixel_blank (px py : Nat) : Framebuffer.blank.pixel px py = false := by
  simp [Framebuffer.pixel, Framebuffer.blank]

/-- No pixel lies outside the array. -/
theorem Framebuffer.pixel_offScreen (fb : Framebuffer) {px py : Nat} (h : ¬ (px < 64 ∧ py < 32)) :
    fb.pixel px py = false := by
  unfold Framebuffer.pixel
  split
  · have : ¬ px < 64 := fun hx => h ⟨hx, by assumption⟩
    simp [this]
  · rfl

/-- A flip inverts one pixel on screen and no other. -/
theorem Framebuffer.pixel_flip (fb : Framebuffer) {px py : Nat} (hx : px < 64) (hy : py < 32) (qx qy : Nat) :
    (fb.flip px py).pixel qx qy = (fb.pixel qx qy ^^ (decide (qx = px) && decide (qy = py))) := by
  unfold Framebuffer.flip Framebuffer.pixel
  by_cases h : qy < 32
  · by_cases hqx : qx < 64
    · by_cases e : py = qy
      · subst e
        have bit : (!decide (qx < px) && decide (qx - px = 0)) = decide (qx = px) := by
          rw [Bool.eq_iff_iff]
          simp only [Bool.and_eq_true, Bool.not_eq_true', decide_eq_false_iff_not, decide_eq_true_eq]
          omega
        simp [hy, hqx, bit]
      · have e' : ¬ qy = py := fun x => e x.symm
        simp [h, hy, hqx, e, e']
    · have : ¬ qx = px := by omega
      simp [hqx, this, h, hy]
  · have : ¬ qy = py := by omega
    simp [h, this]

/-! ### The cycle (R57) -/

/-- A halted engine stays as it is (R60). -/
theorem runStep_halted (p : Params) (f : Instr → State → Result) {s : State} (h : s.status = .halted) :
    runStep p f s = .next s := by
  simp [runStep, h]

/-- The cycle of an engine that is not halted. -/
theorem runStep_running (p : Params) (f : Instr → State → Result) {s : State} (h : s.status ≠ .halted) :
    runStep p f s =
      match fetch p s with
      | .error r => .next (s.raise none r)
      | .ok op =>
        match decodeWith p.sysPolicy op with
        | .error _ => .next (s.raise (some op) ⟨.undefinedOpcode, none⟩)
        | .ok i => finish i (f i s) := by
  unfold runStep
  cases hs : s.status with
  | halted => exact absurd hs h
  | running => rfl
  | awaitingKey => rfl

/-- Everything a Step can do, when it answers a next state. -/
theorem runStep_cases {p : Params} {f : Instr → State → Result} {s t : State} (h : runStep p f s = .next t) :
    (s.status = .halted ∧ t = s) ∨
    (s.status ≠ .halted ∧ ∃ r, fetch p s = .error r ∧ t = s.raise none r) ∨
    (s.status ≠ .halted ∧ ∃ op e, fetch p s = .ok op ∧ decodeWith p.sysPolicy op = .error e ∧
      t = s.raise (some op) ⟨.undefinedOpcode, none⟩) ∨
    (s.status ≠ .halted ∧ ∃ op i u, fetch p s = .ok op ∧ decodeWith p.sysPolicy op = .ok i ∧ f i s = .next u ∧
      t = settle i u) := by
  by_cases hs : s.status = .halted
  · rw [runStep_halted p f hs] at h
    injection h with h
    exact .inl ⟨hs, h.symm⟩
  · rw [runStep_running p f hs] at h
    split at h
    · rename_i r hr
      injection h with h
      exact .inr (.inl ⟨hs, r, hr, h.symm⟩)
    · rename_i op hop
      split at h
      · rename_i e he
        injection h with h
        exact .inr (.inr (.inl ⟨hs, op, e, hop, he, h.symm⟩))
      · rename_i i hi
        unfold finish at h
        split at h
        · rename_i u hu
          injection h with h
          exact .inr (.inr (.inr ⟨hs, op, i, u, hop, hi, hu, h.symm⟩))
        · cases h
        · cases h

/-- What Step adds to an execution is the status alone. -/
theorem settle_eq (i : Instr) (t : State) : settle i t = { t with status := (settle i t).status } := by
  unfold settle; split <;> rfl

/-- The fetch reads the two bytes at pc, high byte first (R37, R38). -/
theorem fetch_inRange (p : Params) {s : State} (h : s.pc.toNat ≤ 0xFFE) :
    fetch p s = .ok (opcodeOfBytes (s.mem.read s.pc.toNat) (s.mem.read (s.pc.toNat + 1))) := by
  simp only [fetch, resolve_inRange p (show s.pc.toNat ≤ 0xFFF by omega),
    resolve_inRange p (show s.pc.toNat + 1 ≤ 0xFFF by omega)]

/-- A fetch that leaves memory raises AddressOutOfRange, pc before pc + 1 (R38, R105). -/
theorem fetch_outOfRange {p : Params} (hp : p.addrPolicy = .fault) {s : State} (h : 0xFFE < s.pc.toNat) :
    fetch p s = .error ⟨.addressOutOfRange, some (max s.pc.toNat 0x1000)⟩ := by
  by_cases hpc : s.pc.toNat ≤ 0xFFF
  · simp only [fetch, resolve_inRange p hpc, resolve_fault hp (show 0xFFF < s.pc.toNat + 1 by omega)]
    rw [Nat.max_eq_right (show s.pc.toNat ≤ 0x1000 by omega), show s.pc.toNat + 1 = 0x1000 by omega]
  · simp only [fetch, resolve_fault hp (show 0xFFF < s.pc.toNat by omega)]
    rw [Nat.max_eq_left (show 0x1000 ≤ s.pc.toNat by omega)]

end Sys2Proof.Machine
end

