-- ==== Sys2Proof/Laws/Display.lean ====
section
/-! SUPPORT. The draw loop of R94, one lemma each for a dot, a row and the whole sprite: which pixels change, and when a
collision is found. -/

namespace Sys2Proof.Machine

/-- A pixel that is on lies on screen (R29). -/
theorem Framebuffer.onScreen_of_pixel {fb : Framebuffer} {px py : Nat} (h : fb.pixel px py = true) :
    px < 64 ∧ py < 32 := by
  by_contra hn
  rw [Framebuffer.pixel_offScreen fb hn] at h
  cases h

/-! ### A dot -/

/-- A dot inverts its own pixel and no other. -/
theorem Drawing.pixel_dot (d : Drawing) (px py : Nat) {qx qy : Nat} (hx : qx < 64) (hy : qy < 32) :
    (d.dot px py).fb.pixel qx qy = (d.fb.pixel qx qy != (decide (qx = px) && decide (qy = py))) := by
  unfold Drawing.dot
  split
  · rename_i h
    exact Framebuffer.pixel_flip d.fb h.1 h.2 qx qy
  · rename_i h
    have : (decide (qx = px) && decide (qy = py)) = false := by
      simp only [Bool.and_eq_false_iff, decide_eq_false_iff_not]
      by_contra hn
      have ⟨h1, h2⟩ : qx = px ∧ qy = py := by tauto
      exact h ⟨by simp only [Config.fbWidth]; omega, by simp only [Config.fbHeight]; omega⟩
    simp [this]

/-- A dot finds a collision exactly if its pixel is on; off screen none is. -/
theorem Drawing.collision_dot (d : Drawing) (px py : Nat) :
    (d.dot px py).collision = (d.collision || d.fb.pixel px py) := by
  unfold Drawing.dot
  split
  · rfl
  · rename_i h
    rw [Framebuffer.pixel_offScreen d.fb h, Bool.or_false]

/-! ### A row -/

/-- The pixels a row inverts: those of its 1 bits from column `c` on. -/
theorem Drawing.pixel_bits (row : Byte) (x0 py : Nat) {qx qy : Nat} (hx : qx < 64) (hy : qy < 32) :
    ∀ (fuel c : Nat) (d : Drawing), (Drawing.bits row x0 py c fuel d).fb.pixel qx qy =
      (d.fb.pixel qx qy != (decide (qy = py ∧ x0 + c ≤ qx ∧ qx < x0 + c + fuel) && row.getLsbD (7 - (qx - x0)))) := by
  intro fuel
  induction fuel with
  | zero =>
    intro c d
    have : ¬ (qy = py ∧ x0 + c ≤ qx ∧ qx < x0 + c + 0) := by omega
    simp only [Drawing.bits, decide_eq_false this, Bool.false_and, Bool.bne_false]
  | succ fuel ih =>
    intro c d
    rw [Drawing.bits, ih]
    by_cases hq : qy = py ∧ qx = x0 + c
    · obtain ⟨h1, h2⟩ := hq
      have e1 : ¬ (qy = py ∧ x0 + (c + 1) ≤ qx ∧ qx < x0 + (c + 1) + fuel) := by omega
      have e2 : qy = py ∧ x0 + c ≤ qx ∧ qx < x0 + c + (fuel + 1) := by omega
      have e3 : qx - x0 = c := by omega
      simp only [decide_eq_false e1, decide_eq_true e2, e3, Bool.false_and, Bool.true_and, Bool.bne_false]
      cases hb : row.getLsbD (7 - c)
      · simp
      · rw [if_pos rfl, Drawing.pixel_dot d _ _ hx hy]; simp [h1, h2]
    · have e : (if row.getLsbD (7 - c) then d.dot (x0 + c) py else d).fb.pixel qx qy = d.fb.pixel qx qy := by
        split
        · rw [Drawing.pixel_dot d _ _ hx hy]
          have : (decide (qx = x0 + c) && decide (qy = py)) = false := by
            simp only [Bool.and_eq_false_iff, decide_eq_false_iff_not]; tauto
          simp [this]
        · rfl
      rw [e]
      have : (qy = py ∧ x0 + (c + 1) ≤ qx ∧ qx < x0 + (c + 1) + fuel) ↔
          (qy = py ∧ x0 + c ≤ qx ∧ qx < x0 + c + (fuel + 1)) := by omega
      simp only [this]

/-- A row finds a collision exactly if one of its 1 bits falls on a pixel that is on. -/
theorem Drawing.collision_bits (row : Byte) (x0 py : Nat) : ∀ (fuel c : Nat) (d : Drawing),
    (Drawing.bits row x0 py c fuel d).collision = true ↔ d.collision = true ∨
      ∃ j, c ≤ j ∧ j < c + fuel ∧ row.getLsbD (7 - j) = true ∧ d.fb.pixel (x0 + j) py = true := by
  intro fuel
  induction fuel with
  | zero => intro c d; simp only [Drawing.bits]; constructor
            · exact .inl
            · rintro (h | ⟨j, h1, h2, _⟩)
              · exact h
              · omega
  | succ fuel ih =>
    intro c d
    rw [Drawing.bits, ih]
    have later : ∀ j, c + 1 ≤ j →
        (if row.getLsbD (7 - c) then d.dot (x0 + c) py else d).fb.pixel (x0 + j) py = d.fb.pixel (x0 + j) py := by
      intro j hj
      split
      · by_cases hs : x0 + j < 64 ∧ py < 32
        · rw [Drawing.pixel_dot d _ _ hs.1 hs.2]
          have : ¬ x0 + j = x0 + c := by omega
          simp only [decide_eq_false this, Bool.false_and, Bool.bne_false]
        · rw [Framebuffer.pixel_offScreen _ hs, Framebuffer.pixel_offScreen _ hs]
      · rfl
    have now : (if row.getLsbD (7 - c) then d.dot (x0 + c) py else d).collision = true ↔
        d.collision = true ∨ (row.getLsbD (7 - c) = true ∧ d.fb.pixel (x0 + c) py = true) := by
      split
      · rename_i hb; simp [Drawing.collision_dot, hb]
      · rename_i hb; simp [hb]
    rw [now]
    constructor
    · rintro ((h | h) | ⟨j, h1, h2, h3, h4⟩)
      · exact .inl h
      · exact .inr ⟨c, le_refl c, by omega, h⟩
      · exact .inr ⟨j, by omega, by omega, h3, by rwa [later j h1] at h4⟩
    · rintro (h | ⟨j, h1, h2, h3, h4⟩)
      · exact .inl (.inl h)
      · by_cases e : j = c
        · subst e; exact .inl (.inr ⟨h3, h4⟩)
        · exact .inr ⟨j, by omega, by omega, h3, by rwa [later j (by omega)]⟩

/-! ### The sprite -/

/-- The pixels a sprite inverts: row `qy - y` of it has a 1 bit at column `qx - x0`. -/
theorem Drawing.pixel_rows (x0 : Nat) {qx qy : Nat} (hx : qx < 64) (hy : qy < 32) :
    ∀ (sprite : List Byte) (y : Nat) (d : Drawing), (Drawing.rows x0 sprite y d).fb.pixel qx qy =
      (d.fb.pixel qx qy != (decide (x0 ≤ qx ∧ qx < x0 + 8 ∧ y ≤ qy ∧ qy < y + sprite.length) &&
        (sprite.getD (qy - y) 0).getLsbD (7 - (qx - x0)))) := by
  intro sprite
  induction sprite with
  | nil =>
    intro y d
    have : ¬ (x0 ≤ qx ∧ qx < x0 + 8 ∧ y ≤ qy ∧ qy < y + ([] : List Byte).length) := by
      simp only [List.length_nil]; omega
    simp only [Drawing.rows, decide_eq_false this, Bool.false_and, Bool.bne_false]
  | cons row rest ih =>
    intro y d
    rw [Drawing.rows, ih, Drawing.pixel_bits row x0 y hx hy]
    by_cases hq : qy = y
    · subst hq
      have e1 : ¬ (x0 ≤ qx ∧ qx < x0 + 8 ∧ qy + 1 ≤ qy ∧ qy < qy + 1 + rest.length) := by omega
      have e2 : decide (qy = qy ∧ x0 + 0 ≤ qx ∧ qx < x0 + 0 + 8) =
          decide (x0 ≤ qx ∧ qx < x0 + 8 ∧ qy ≤ qy ∧ qy < qy + (row :: rest).length) := by
        rw [decide_eq_decide, List.length_cons]; omega
      rw [e2]
      simp only [decide_eq_false e1, Bool.false_and, Bool.bne_false, Nat.sub_self, List.getD_cons_zero]
    · have e1 : ¬ (qy = y ∧ x0 + 0 ≤ qx ∧ qx < x0 + 0 + 8) := by omega
      have e2 : (x0 ≤ qx ∧ qx < x0 + 8 ∧ y + 1 ≤ qy ∧ qy < y + 1 + rest.length) ↔
          (x0 ≤ qx ∧ qx < x0 + 8 ∧ y ≤ qy ∧ qy < y + (row :: rest).length) := by
        simp only [List.length_cons]; omega
      simp only [decide_eq_false e1, Bool.false_and, Bool.bne_false, e2]
      by_cases hl : y < qy
      · have e3 : qy - y = (qy - (y + 1)) + 1 := by omega
        rw [e3, List.getD_cons_succ]
      · have e4 : ¬ (x0 ≤ qx ∧ qx < x0 + 8 ∧ y ≤ qy ∧ qy < y + (row :: rest).length) := by omega
        simp only [decide_eq_false e4, Bool.false_and]

/-- A sprite finds a collision exactly if one of its 1 bits falls on a pixel that is on. -/
theorem Drawing.collision_rows (x0 : Nat) : ∀ (sprite : List Byte) (y : Nat) (d : Drawing),
    (Drawing.rows x0 sprite y d).collision = true ↔ d.collision = true ∨
      ∃ r j, r < sprite.length ∧ j < 8 ∧ (sprite.getD r 0).getLsbD (7 - j) = true ∧
        d.fb.pixel (x0 + j) (y + r) = true := by
  intro sprite
  induction sprite with
  | nil => intro y d; simp [Drawing.rows]
  | cons row rest ih =>
    intro y d
    rw [Drawing.rows, ih, Drawing.collision_bits]
    have later : ∀ r j, (Drawing.bits row x0 y 0 8 d).fb.pixel (x0 + j) (y + 1 + r) =
        d.fb.pixel (x0 + j) (y + (r + 1)) := by
      intro r j
      have e : y + 1 + r = y + (r + 1) := by omega
      rw [e]
      by_cases hs : x0 + j < 64 ∧ y + (r + 1) < 32
      · rw [Drawing.pixel_bits row x0 y hs.1 hs.2]
        have : ¬ (y + (r + 1) = y ∧ x0 + 0 ≤ x0 + j ∧ x0 + j < x0 + 0 + 8) := by omega
        simp only [decide_eq_false this, Bool.false_and, Bool.bne_false]
      · rw [Framebuffer.pixel_offScreen _ hs, Framebuffer.pixel_offScreen _ hs]
    constructor
    · rintro ((h | ⟨j, _, h2, h3, h4⟩) | ⟨r, j, h1, h2, h3, h4⟩)
      · exact .inl h
      · exact .inr ⟨0, j, by simp, by omega, h3, h4⟩
      · exact .inr ⟨r + 1, j, by simp only [List.length_cons]; omega, h2, by rwa [List.getD_cons_succ],
          by rwa [later] at h4⟩
    · rintro (h | ⟨r, j, h1, h2, h3, h4⟩)
      · exact .inl (.inl h)
      · cases r with
        | zero => exact .inl (.inr ⟨j, by omega, by omega, h3, h4⟩)
        | succ r =>
          exact .inr ⟨r, j, by simp only [List.length_cons] at h1; omega, h2, by rwa [List.getD_cons_succ] at h3,
            by rwa [later]⟩

end Sys2Proof.Machine
end

