-- ==== Sys2Proof/Laws/Exec.lean ====
section
/-! SUPPORT. The six instructions that check before they write (R15): everything each can do, said once, under any
parameters. `exec` is the case of this hardware's parameters, by rfl. -/

namespace Sys2Proof.Machine

theorem execCall_eq (nnn : Addr12) (s : State) : exec (.call nnn) s = callWith Params.hardware nnn s := rfl
theorem execDrw_eq (x y : Reg) (n : Count) (s : State) : exec (.drw x y n) s = drwWith Params.hardware x y n s := rfl
theorem execLdB_eq (x : Reg) (s : State) : exec (.ldB x) s = ldBWith Params.hardware x s := rfl
theorem execStore_eq (x : Reg) (s : State) : exec (.store x) s = storeWith Params.hardware x s := rfl
theorem execLoad_eq (x : Reg) (s : State) : exec (.load x) s = loadWith Params.hardware x s := rfl

/-- RET pops or raises (R63). -/
theorem execRet_cases {s t : State} (h : exec .ret s = .next t) :
    (∃ h : 0 < s.sp.val, t = { s with
      sp := ⟨s.sp.val - 1, by omega⟩, pc := s.stack[s.sp.val - 1]'(by omega) }) ∨
    (s.sp.val = 0 ∧ t = s.raise (some (encode .ret)) ⟨.stackUnderflow, none⟩) := by
  by_cases h0 : s.sp.val = 0
  · simp only [exec, execRet, h0, dif_pos, State.attempt_error, Host.Outcome.next.injEq] at h
    exact .inr ⟨h0, h.symm⟩
  · simp only [exec, execRet, h0, dif_neg, not_false_eq_true, State.attempt_ok, Host.Outcome.next.injEq] at h
    exact .inl ⟨by omega, h.symm⟩

/-- CALL pushes or raises (R65). -/
theorem callWith_cases {p : Params} {nnn : Addr12} {s t : State} (h : callWith p nnn s = .next t) :
    (∃ h : s.sp.val < p.stackDepth.val, t = { s with
      stack := s.stack.set s.sp.val (s.pc + 2) (by omega), sp := ⟨s.sp.val + 1, by omega⟩, pc := zext16 nnn }) ∨
    (p.stackDepth.val ≤ s.sp.val ∧ t = s.raise (some (encode (.call nnn))) ⟨.stackOverflow, none⟩) := by
  by_cases h0 : s.sp.val < p.stackDepth.val
  · simp only [callWith, h0, dif_pos, State.attempt_ok, Host.Outcome.next.injEq] at h
    exact .inl ⟨h0, h.symm⟩
  · simp only [callWith, h0, dif_neg, not_false_eq_true, State.attempt_error, Host.Outcome.next.injEq] at h
    exact .inr ⟨by omega, h.symm⟩

/-- DRW draws or raises (R94). -/
theorem drwWith_cases {p : Params} {x y : Reg} {n : Count} {s t : State} (h : drwWith p x y n s = .next t) :
    (∃ ms d, readTargets p s.I.toNat n.val = .ok ms ∧
      d = s.fb.draw (s.getV x).toNat (s.getV y).toNat (ms.map s.mem.read) ∧
      t = ({ s with fb := d.fb }.setV VF (flagByte d.collision)).advance 2) ∨
    (∃ r, readTargets p s.I.toNat n.val = .error r ∧ t = s.raise (some (encode (.drw x y n))) r) := by
  unfold drwWith at h
  cases hr : readTargets p s.I.toNat n.val with
  | ok ms =>
    simp only [hr, Except.map, State.attempt_ok, Host.Outcome.next.injEq] at h
    exact .inl ⟨ms, _, rfl, rfl, h.symm⟩
  | error r =>
    simp only [hr, Except.map, State.attempt_error, Host.Outcome.next.injEq] at h
    exact .inr ⟨r, rfl, h.symm⟩

/-- LD B, Vx stores three digits or raises (R90). -/
theorem ldBWith_cases {p : Params} {x : Reg} {s t : State} (h : ldBWith p x s = .next t) :
    (∃ ms, writeTargets p s.I.toNat 3 = .ok ms ∧
      t = { s with mem := s.mem.writeAll (ms.zip (bcdDigits (s.getV x))) }.advance 2) ∨
    (∃ r, writeTargets p s.I.toNat 3 = .error r ∧ t = s.raise (some (encode (.ldB x))) r) := by
  unfold ldBWith at h
  cases hr : writeTargets p s.I.toNat 3 with
  | ok ms =>
    simp only [hr, Except.map, State.attempt_ok, Host.Outcome.next.injEq] at h
    exact .inl ⟨ms, rfl, h.symm⟩
  | error r =>
    simp only [hr, Except.map, State.attempt_error, Host.Outcome.next.injEq] at h
    exact .inr ⟨r, rfl, h.symm⟩

/-- LD [I], Vx stores the register range or raises (R91). -/
theorem storeWith_cases {p : Params} {x : Reg} {s t : State} (h : storeWith p x s = .next t) :
    (∃ ms, writeTargets p s.I.toNat (rangeLength x) = .ok ms ∧
      t = ({ s with mem := s.mem.writeAll (ms.zip (s.rangeV x)) }.bumpI p (rangeLength x)).advance 2) ∨
    (∃ r, writeTargets p s.I.toNat (rangeLength x) = .error r ∧ t = s.raise (some (encode (.store x))) r) := by
  unfold storeWith at h
  cases hr : writeTargets p s.I.toNat (rangeLength x) with
  | ok ms =>
    simp only [hr, Except.map, State.attempt_ok, Host.Outcome.next.injEq] at h
    exact .inl ⟨ms, rfl, h.symm⟩
  | error r =>
    simp only [hr, Except.map, State.attempt_error, Host.Outcome.next.injEq] at h
    exact .inr ⟨r, rfl, h.symm⟩

/-- LD Vx, [I] loads the register range or raises (R92). -/
theorem loadWith_cases {p : Params} {x : Reg} {s t : State} (h : loadWith p x s = .next t) :
    (∃ ms, readTargets p s.I.toNat (rangeLength x) = .ok ms ∧
      t = ((s.setVFrom 0 (ms.map s.mem.read)).bumpI p (rangeLength x)).advance 2) ∨
    (∃ r, readTargets p s.I.toNat (rangeLength x) = .error r ∧ t = s.raise (some (encode (.load x))) r) := by
  unfold loadWith at h
  cases hr : readTargets p s.I.toNat (rangeLength x) with
  | ok ms =>
    simp only [hr, Except.map, State.attempt_ok, Host.Outcome.next.injEq] at h
    exact .inl ⟨ms, rfl, h.symm⟩
  | error r =>
    simp only [hr, Except.map, State.attempt_error, Host.Outcome.next.injEq] at h
    exact .inr ⟨r, rfl, h.symm⟩

end Sys2Proof.Machine
end

