-- ==== Sys2Proof/Laws/PerInstr.lean ====
section
/-! SUPPORT. One statement for every instruction: its encoding lies in its row of spec/opcode_table.json, that is, every
fixed field of the row has the row's value (spec/30_encoding.md R51, R53). -/

namespace Sys2Proof.Laws.EncodedInItsRow

/-- A fixed field of an opcode-table row: bits `hi` to `lo`, and their value. -/
structure Fixed where
  hi : Nat
  lo : Nat
  value : Nat
deriving DecidableEq, Repr

/-- The fixed fields of an instruction's row. -/
def fixedFields (i : Instr) : List Fixed :=
  match i with
  | .sys _ => [⟨15, 12, 0x0⟩]
  | .cls => [⟨15, 0, 0xE0⟩]
  | .ret => [⟨15, 0, 0xEE⟩]
  | .jp _ => [⟨15, 12, 0x1⟩]
  | .call _ => [⟨15, 12, 0x2⟩]
  | .seImm _ _ => [⟨15, 12, 0x3⟩]
  | .sneImm _ _ => [⟨15, 12, 0x4⟩]
  | .seReg _ _ => [⟨15, 12, 0x5⟩, ⟨3, 0, 0x0⟩]
  | .ldImm _ _ => [⟨15, 12, 0x6⟩]
  | .addImm _ _ => [⟨15, 12, 0x7⟩]
  | .mov _ _ => [⟨15, 12, 0x8⟩, ⟨3, 0, 0x0⟩]
  | .or _ _ => [⟨15, 12, 0x8⟩, ⟨3, 0, 0x1⟩]
  | .and _ _ => [⟨15, 12, 0x8⟩, ⟨3, 0, 0x2⟩]
  | .xor _ _ => [⟨15, 12, 0x8⟩, ⟨3, 0, 0x3⟩]
  | .add _ _ => [⟨15, 12, 0x8⟩, ⟨3, 0, 0x4⟩]
  | .sub _ _ => [⟨15, 12, 0x8⟩, ⟨3, 0, 0x5⟩]
  | .shr _ _ => [⟨15, 12, 0x8⟩, ⟨3, 0, 0x6⟩]
  | .subn _ _ => [⟨15, 12, 0x8⟩, ⟨3, 0, 0x7⟩]
  | .shl _ _ => [⟨15, 12, 0x8⟩, ⟨3, 0, 0xE⟩]
  | .sneReg _ _ => [⟨15, 12, 0x9⟩, ⟨3, 0, 0x0⟩]
  | .ldI _ => [⟨15, 12, 0xA⟩]
  | .jpV0 _ => [⟨15, 12, 0xB⟩]
  | .rnd _ _ => [⟨15, 12, 0xC⟩]
  | .drw _ _ _ => [⟨15, 12, 0xD⟩]
  | .skp _ => [⟨15, 12, 0xE⟩, ⟨7, 0, 0x9E⟩]
  | .sknp _ => [⟨15, 12, 0xE⟩, ⟨7, 0, 0xA1⟩]
  | .ldVxDT _ => [⟨15, 12, 0xF⟩, ⟨7, 0, 0x7⟩]
  | .ldVxK _ => [⟨15, 12, 0xF⟩, ⟨7, 0, 0xA⟩]
  | .ldDTVx _ => [⟨15, 12, 0xF⟩, ⟨7, 0, 0x15⟩]
  | .ldSTVx _ => [⟨15, 12, 0xF⟩, ⟨7, 0, 0x18⟩]
  | .addI _ => [⟨15, 12, 0xF⟩, ⟨7, 0, 0x1E⟩]
  | .ldF _ => [⟨15, 12, 0xF⟩, ⟨7, 0, 0x29⟩]
  | .ldB _ => [⟨15, 12, 0xF⟩, ⟨7, 0, 0x33⟩]
  | .store _ => [⟨15, 12, 0xF⟩, ⟨7, 0, 0x55⟩]
  | .load _ => [⟨15, 12, 0xF⟩, ⟨7, 0, 0x65⟩]

/-- The field of a word. -/
def Fixed.of (f : Fixed) (w : Word) : Nat := w.toNat / 2 ^ f.lo % 2 ^ (f.hi - f.lo + 1)

/-- Every fixed field of the row stands in the encoding. -/
def Statement (i : Instr) : Prop := ∀ f ∈ fixedFields i, f.of (encode i) = f.value

theorem sys (nnn : Addr12) : Statement (.sys nnn) := by
  have := nnn.isLt; simp [Statement, fixedFields, Fixed.of, encode]; omega

theorem cls : Statement .cls := by simp [Statement, fixedFields, Fixed.of, encode]

theorem ret : Statement .ret := by simp [Statement, fixedFields, Fixed.of, encode]

theorem jp (nnn : Addr12) : Statement (.jp nnn) := by
  have := nnn.isLt; simp [Statement, fixedFields, Fixed.of, encode]; omega

theorem call (nnn : Addr12) : Statement (.call nnn) := by
  have := nnn.isLt; simp [Statement, fixedFields, Fixed.of, encode]; omega

theorem seImm (x : Reg) (nn : Byte) : Statement (.seImm x nn) := by
  have := nn.isLt; simp [Statement, fixedFields, Fixed.of, encode]; omega

theorem sneImm (x : Reg) (nn : Byte) : Statement (.sneImm x nn) := by
  have := nn.isLt; simp [Statement, fixedFields, Fixed.of, encode]; omega

theorem seReg (x : Reg) (y : Reg) : Statement (.seReg x y) := by
  simp [Statement, fixedFields, Fixed.of, encode]; omega

theorem ldImm (x : Reg) (nn : Byte) : Statement (.ldImm x nn) := by
  have := nn.isLt; simp [Statement, fixedFields, Fixed.of, encode]; omega

theorem addImm (x : Reg) (nn : Byte) : Statement (.addImm x nn) := by
  have := nn.isLt; simp [Statement, fixedFields, Fixed.of, encode]; omega

theorem mov (x : Reg) (y : Reg) : Statement (.mov x y) := by
  simp [Statement, fixedFields, Fixed.of, encode]; omega

theorem or (x : Reg) (y : Reg) : Statement (.or x y) := by
  simp [Statement, fixedFields, Fixed.of, encode]; omega

theorem and (x : Reg) (y : Reg) : Statement (.and x y) := by
  simp [Statement, fixedFields, Fixed.of, encode]; omega

theorem xor (x : Reg) (y : Reg) : Statement (.xor x y) := by
  simp [Statement, fixedFields, Fixed.of, encode]; omega

theorem add (x : Reg) (y : Reg) : Statement (.add x y) := by
  simp [Statement, fixedFields, Fixed.of, encode]; omega

theorem sub (x : Reg) (y : Reg) : Statement (.sub x y) := by
  simp [Statement, fixedFields, Fixed.of, encode]; omega

theorem shr (x : Reg) (y : Reg) : Statement (.shr x y) := by
  simp [Statement, fixedFields, Fixed.of, encode]; omega

theorem subn (x : Reg) (y : Reg) : Statement (.subn x y) := by
  simp [Statement, fixedFields, Fixed.of, encode]; omega

theorem shl (x : Reg) (y : Reg) : Statement (.shl x y) := by
  simp [Statement, fixedFields, Fixed.of, encode]; omega

theorem sneReg (x : Reg) (y : Reg) : Statement (.sneReg x y) := by
  simp [Statement, fixedFields, Fixed.of, encode]; omega

theorem ldI (nnn : Addr12) : Statement (.ldI nnn) := by
  have := nnn.isLt; simp [Statement, fixedFields, Fixed.of, encode]; omega

theorem jpV0 (nnn : Addr12) : Statement (.jpV0 nnn) := by
  have := nnn.isLt; simp [Statement, fixedFields, Fixed.of, encode]; omega

theorem rnd (x : Reg) (nn : Byte) : Statement (.rnd x nn) := by
  have := nn.isLt; simp [Statement, fixedFields, Fixed.of, encode]; omega

theorem drw (x : Reg) (y : Reg) (n : Count) : Statement (.drw x y n) := by
  simp [Statement, fixedFields, Fixed.of, encode]; omega

theorem skp (x : Reg) : Statement (.skp x) := by
  simp [Statement, fixedFields, Fixed.of, encode]; omega

theorem sknp (x : Reg) : Statement (.sknp x) := by
  simp [Statement, fixedFields, Fixed.of, encode]; omega

theorem ldVxDT (x : Reg) : Statement (.ldVxDT x) := by
  simp [Statement, fixedFields, Fixed.of, encode]; omega

theorem ldVxK (x : Reg) : Statement (.ldVxK x) := by
  simp [Statement, fixedFields, Fixed.of, encode]; omega

theorem ldDTVx (x : Reg) : Statement (.ldDTVx x) := by
  simp [Statement, fixedFields, Fixed.of, encode]; omega

theorem ldSTVx (x : Reg) : Statement (.ldSTVx x) := by
  simp [Statement, fixedFields, Fixed.of, encode]; omega

theorem addI (x : Reg) : Statement (.addI x) := by
  simp [Statement, fixedFields, Fixed.of, encode]; omega

theorem ldF (x : Reg) : Statement (.ldF x) := by
  simp [Statement, fixedFields, Fixed.of, encode]; omega

theorem ldB (x : Reg) : Statement (.ldB x) := by
  simp [Statement, fixedFields, Fixed.of, encode]; omega

theorem store (x : Reg) : Statement (.store x) := by
  simp [Statement, fixedFields, Fixed.of, encode]; omega

theorem load (x : Reg) : Statement (.load x) := by
  simp [Statement, fixedFields, Fixed.of, encode]; omega

end Sys2Proof.Laws.EncodedInItsRow
end

