-- ==== Sys2Proof/Laws/Targets.lean ====
section
/-! SUPPORT. The targets of an n-byte access at I under any parameters (R43, R44, R85, R86): when they resolve, when they
may be written, and what writing them leaves. -/

namespace Sys2Proof.Machine

theorem target_mask {p : Params} (hp : p.addrPolicy = .mask) (s : State) (k : Nat) :
    target p s k = (s.I.toNat + k) % 4096 := by
  simp only [target, hp]

theorem target_fault {p : Params} (hp : p.addrPolicy = .fault) (s : State) (k : Nat) :
    target p s k = s.I.toNat + k := by
  simp only [target, hp]

/-- The targets inside memory are addresses of memory. -/
theorem target_lt {p : Params} {s : State} {n k : Nat} (h : TargetsInMemory p s n) (hk : k < n) :
    target p s k < Config.memSize := by
  simp only [Config.memSize]
  cases hp : p.addrPolicy with
  | mask => rw [target_mask hp]; exact Nat.mod_lt _ (by decide)
  | fault => rw [target_fault hp]; rcases h with h | h; (rw [hp] at h; cases h); omega

/-- Two targets of one access are two addresses. -/
theorem target_inj {p : Params} {s : State} {j k : Nat} (hj : j < 4096) (hk : k < 4096)
    (h : target p s j = target p s k) : j = k := by
  cases hp : p.addrPolicy with
  | mask => rw [target_mask hp, target_mask hp] at h; omega
  | fault => rw [target_fault hp, target_fault hp] at h; omega

/-- An access whose targets are inside memory resolves to them. -/
theorem readTargets_targets {p : Params} {s : State} {n : Nat} (h : TargetsInMemory p s n) :
    readTargets p s.I.toNat n = .ok ((List.range n).map (target p s)) := by
  cases hp : p.addrPolicy with
  | mask =>
    rw [readTargets, resolveRange_mask hp, List.range'_eq_map_range, List.map_map]
    congr 1
    exact List.map_congr_left fun k _ => (target_mask hp s k).symm
  | fault =>
    rcases h with h | h
    · rw [hp] at h; cases h
    · rw [readTargets, resolveRange_inRange p h, List.range'_eq_map_range]
      congr 1
      exact List.map_congr_left fun k _ => (target_fault hp s k).symm

/-- An access with a target past the top raises for the first of them. -/
theorem readTargets_outOfMemory {p : Params} {s : State} {n : Nat} (h : ¬ TargetsInMemory p s n) (hn : 0 < n) :
    readTargets p s.I.toNat n = .error ⟨.addressOutOfRange, some (max s.I.toNat 0x1000)⟩ := by
  cases hp : p.addrPolicy with
  | mask => exact absurd (.inl hp) h
  | fault =>
    have hr : ¬ s.I.toNat + n ≤ 0x1000 := fun hr => h (.inr hr)
    exact resolveRange_fault hp (by omega) hn

/-- A write past the top raises before any protection is tested (R105). -/
theorem writeTargets_outOfMemory {p : Params} {s : State} {n : Nat} (h : ¬ TargetsInMemory p s n) (hn : 0 < n) :
    writeTargets p s.I.toNat n = .error ⟨.addressOutOfRange, some (max s.I.toNat 0x1000)⟩ := by
  have hr : resolveRange p s.I.toNat n = _ := readTargets_outOfMemory h hn
  simp only [writeTargets, hr]

/-- A write whose targets are inside memory and unprotected resolves to them. -/
theorem writeTargets_targets {p : Params} {s : State} {n : Nat} (h : TargetsInMemory p s n)
    (hw : TargetsWritable p s n) : writeTargets p s.I.toNat n = .ok ((List.range n).map (target p s)) := by
  have hr : resolveRange p s.I.toNat n = _ := readTargets_targets h
  have hp : protect p ((List.range n).map (target p s)) = .ok () := by
    rcases hw with hw | hw
    · exact protect_off hw _
    · refine protect_allowed p fun m hm => ?_
      obtain ⟨k, hk, rfl⟩ := List.mem_map.mp hm
      exact hw k (List.mem_range.mp hk)
  simp only [writeTargets, hr, hp]

/-- A write with a protected target inside memory raises for the first of them (R105). -/
theorem writeTargets_firstProtected {p : Params} {s : State} {n k : Nat} (h : TargetsInMemory p s n)
    (hk : FirstProtected p s n k) :
    writeTargets p s.I.toNat n = .error ⟨.protectedWrite, some (target p s k)⟩ := by
  obtain ⟨hp, hkn, hlt, hbefore⟩ := hk
  have hr : resolveRange p s.I.toNat n = _ := readTargets_targets h
  have hf := protect_first hp (ms := (List.range n).map (target p s)) (k := k) (by simpa using hkn)
    (by simpa using hlt) fun j hj => by simpa using hbefore j hj
  simp only [List.getElem_map, List.getElem_range] at hf
  simp only [writeTargets, hr, hf]

/-- Bytes written to the targets stand there, and every other byte is as before. -/
theorem stored_writeAll {p : Params} {s t : State} {vs : List Byte} (hm : s.mem.wf)
    (h : TargetsInMemory p s vs.length) (hn : vs.length ≤ 4096)
    (ht : t.mem = s.mem.writeAll (((List.range vs.length).map (target p s)).zip vs)) :
    Stored p vs.length (fun k => vs.getD k 0) s t := by
  have hr : ∀ a ∈ (List.range vs.length).map (target p s), a < Config.memSize := fun a ha => by
    obtain ⟨k, hk, rfl⟩ := List.mem_map.mp ha
    exact target_lt h (List.mem_range.mp hk)
  have hd : ((List.range vs.length).map (target p s)).Nodup := by
    refine List.Nodup.map_on (fun j hj k hk e => ?_) List.nodup_range
    have := List.mem_range.mp hj
    have := List.mem_range.mp hk
    exact target_inj (by omega) (by omega) e
  refine ⟨fun k hk => ?_, fun a ha => ?_⟩
  · have := Memory.read_writeAll_zip _ vs hm hr hd k (by simpa using hk) hk
    simp only [List.getElem_map, List.getElem_range] at this
    rw [ht, this]
    exact (List.getD_eq_getElem _ _ hk).symm
  · rw [ht]
    refine Memory.read_writeAll_of_not_mem _ _ hm (fun w hw => hr _ (List.of_mem_zip hw).1) fun w hw e => ?_
    obtain ⟨k, hk, hk'⟩ := List.mem_map.mp (List.of_mem_zip hw).1
    exact ha k (List.mem_range.mp hk) (by rw [← e, ← hk'])

end Sys2Proof.Machine
end

