-- ==== Sys2Proof/Machine/Assembly.lean ====
section
/-! DEFINITION. The assembler spelling of an instruction (spec/30_encoding.md R53, R56). A naming only: no meaning
depends on it. -/

namespace Sys2Proof.Machine

/-- One hex digit. -/
def hexDigit (d : Nat) : String :=
  ["0", "1", "2", "3", "4", "5", "6", "7", "8", "9", "A", "B", "C", "D", "E", "F"].getD (d % 16) "0"

/-- `V0` to `VF` (R56). -/
def regName (r : Reg) : String := "V" ++ hexDigit r.val

/-- An 8-bit number, "hex with a 0x prefix" (R56). -/
def hexByte (nn : Byte) : String := "0x" ++ hexDigit (nn.toNat / 16) ++ hexDigit nn.toNat

/-- A 12-bit address (R56). -/
def hexAddr (nnn : Addr12) : String :=
  "0x" ++ hexDigit (nnn.toNat / 256) ++ hexDigit (nnn.toNat / 16) ++ hexDigit nnn.toNat

/-- The row count, in decimal (R56). -/
def decimalCount (n : Count) : String :=
  if n.val < 10 then hexDigit n.val else "1" ++ hexDigit (n.val - 10)

/-- `MNEMONIC operand, operand` (R53, R56). -/
def assembly (i : Instr) : String :=
  match i with
  | .sys nnn => "SYS " ++ hexAddr nnn
  | .cls => "CLS"
  | .ret => "RET"
  | .jp nnn => "JP " ++ hexAddr nnn
  | .call nnn => "CALL " ++ hexAddr nnn
  | .seImm x nn => "SE " ++ regName x ++ ", " ++ hexByte nn
  | .sneImm x nn => "SNE " ++ regName x ++ ", " ++ hexByte nn
  | .seReg x y => "SE " ++ regName x ++ ", " ++ regName y
  | .ldImm x nn => "LD " ++ regName x ++ ", " ++ hexByte nn
  | .addImm x nn => "ADD " ++ regName x ++ ", " ++ hexByte nn
  | .mov x y => "LD " ++ regName x ++ ", " ++ regName y
  | .or x y => "OR " ++ regName x ++ ", " ++ regName y
  | .and x y => "AND " ++ regName x ++ ", " ++ regName y
  | .xor x y => "XOR " ++ regName x ++ ", " ++ regName y
  | .add x y => "ADD " ++ regName x ++ ", " ++ regName y
  | .sub x y => "SUB " ++ regName x ++ ", " ++ regName y
  | .shr x _ => "SHR " ++ regName x
  | .subn x y => "SUBN " ++ regName x ++ ", " ++ regName y
  | .shl x _ => "SHL " ++ regName x
  | .sneReg x y => "SNE " ++ regName x ++ ", " ++ regName y
  | .ldI nnn => "LD I, " ++ hexAddr nnn
  | .jpV0 nnn => "JP V0, " ++ hexAddr nnn
  | .rnd x nn => "RND " ++ regName x ++ ", " ++ hexByte nn
  | .drw x y n => "DRW " ++ regName x ++ ", " ++ regName y ++ ", " ++ decimalCount n
  | .skp x => "SKP " ++ regName x
  | .sknp x => "SKNP " ++ regName x
  | .ldVxDT x => "LD " ++ regName x ++ ", DT"
  | .ldVxK x => "LD " ++ regName x ++ ", K"
  | .ldDTVx x => "LD DT, " ++ regName x
  | .ldSTVx x => "LD ST, " ++ regName x
  | .addI x => "ADD I, " ++ regName x
  | .ldF x => "LD F, " ++ regName x
  | .ldB x => "LD B, " ++ regName x
  | .store x => "LD [I], " ++ regName x
  | .load x => "LD " ++ regName x ++ ", [I]"

end Sys2Proof.Machine
end

