-- ==== Sys2Proof/Tests/Slice0.lean ====
section
/-! SUPPORT. The tests of the model. Expected results are those of spec/95_test_vectors.md, cited by their id, or written
out from the opcode map of R53. Then, for every obligation with hypotheses, a state and operands that meet them. -/

namespace Sys2Proof.Tests

set_option Elab.async false

open Sys2Proof Sys2Proof.Machine

/-! ### Helpers -/

/-- The start state of the vectors: after `Reset([])`, no key. -/
def start : State := { State.reset with key := none }

/-- The state with registers set. -/
def regs : List (Reg × Byte) → State → State
  | [], s => s
  | (r, v) :: rest, s => regs rest (s.setV r v)

/-- The state with bytes in memory. -/
def bytes (a : Nat) (vs : List Byte) (s : State) : State := { s with mem := s.mem.writeFrom a vs }

/-- The state with pixels on. -/
def pixels : List (Nat × Nat) → State → State
  | [], s => s
  | p :: rest, s => pixels rest { s with fb := s.fb.flip p.1 p.2 }

/-- What is seen of the next state of an outcome. -/
def see {α : Type} (f : State → α) : Result → Option α
  | .next t => some (f t)
  | .fault _ => none
  | .refused _ => none

/-- The refusal of an outcome. -/
def refusal : Result → Option Refusal
  | .refused r => some r
  | .next _ => none
  | .fault _ => none

/-- What is seen after one Step with an opcode placed at the fetch. -/
def after {α : Type} (f : State → α) (op : Nat) (s : State) : Option α := see f (step (s.withFetchWord 16 op))

/-- The same Step under other parameters and a draw. -/
def afterWith {α : Type} (p : Params) (rnd : Byte) (f : State → α) (op : Nat) (s : State) : Option α :=
  see f (stepWith p rnd (s.withFetchWord 16 op))

/-- V1, VF and pc. -/
def alu (t : State) : Byte × Byte × Word := (t.getV 1, t.getV VF, t.pc)

/-- The pixels that are on, by rows. -/
def lit (t : State) : List (Nat × Nat) :=
  (List.range 32).flatMap fun py => ((List.range 64).filter fun px => t.fb.pixel px py).map fun px => (px, py)

/-- Three bytes of memory. -/
def three (a : Nat) (t : State) : List Byte := [t.mem.read a, t.mem.read (a + 1), t.mem.read (a + 2)]

/-- What a fatal error leaves. -/
def halt (t : State) : Status × Option ErrorRecord × Word := (t.status, t.err, t.pc)

/-! ### Well-formed terms -/

theorem test_wellFormed_refuses_sys_cls : (Instr.sys 0x0E0).wellFormed = false := by decide
theorem test_wellFormed_refuses_sys_ret : (Instr.sys 0x0EE).wellFormed = false := by decide
theorem test_wellFormed_accepts_sys : (Instr.sys 0x0E1).wellFormed = true := by decide

/-! ### Words written out from the opcode map (R53) -/

theorem test_decode_class0 :
    decode 0b0000_0001_0010_0011 = .ok (.sys 0x123) ∧ decode 0b0000_0000_1110_0000 = .ok .cls ∧
    decode 0b0000_0000_1110_1110 = .ok .ret := by decide
theorem test_decode_jumps :
    decode 0b0001_0010_0011_0100 = .ok (.jp 0x234) ∧ decode 0b0010_1010_1011_1100 = .ok (.call 0xABC) ∧
    decode 0b1011_1111_1111_1110 = .ok (.jpV0 0xFFE) := by decide
theorem test_decode_skips :
    decode 0b0011_0001_1111_1110 = .ok (.seImm 1 0xFE) ∧ decode 0b0100_1110_0001_0010 = .ok (.sneImm 14 0x12) ∧
    decode 0b0101_0001_0010_0000 = .ok (.seReg 1 2) ∧ decode 0b1001_1100_0011_0000 = .ok (.sneReg 12 3) := by decide
theorem test_decode_immediates :
    decode 0b0110_1010_0011_1100 = .ok (.ldImm 10 0x3C) ∧ decode 0b0111_0001_1111_1111 = .ok (.addImm 1 0xFF) ∧
    decode 0b1100_0001_0000_1111 = .ok (.rnd 1 0x0F) ∧ decode 0b1010_0011_0000_0001 = .ok (.ldI 0x301) := by decide
theorem test_decode_class8 :
    decode 0b1000_0001_0010_0000 = .ok (.mov 1 2) ∧ decode 0b1000_0001_0010_0001 = .ok (.or 1 2) ∧
    decode 0b1000_0001_0010_0010 = .ok (.and 1 2) ∧ decode 0b1000_0001_0010_0011 = .ok (.xor 1 2) ∧
    decode 0b1000_0001_0010_0100 = .ok (.add 1 2) ∧ decode 0b1000_0001_0010_0101 = .ok (.sub 1 2) ∧
    decode 0b1000_0001_0010_0110 = .ok (.shr 1 2) ∧ decode 0b1000_0001_0010_0111 = .ok (.subn 1 2) ∧
    decode 0b1000_0001_0010_1110 = .ok (.shl 1 2) := by decide
theorem test_decode_draw_and_keys :
    decode 0b1101_1010_1011_0101 = .ok (.drw 10 11 5) ∧ decode 0b1110_0001_1001_1110 = .ok (.skp 1) ∧
    decode 0b1110_0001_1010_0001 = .ok (.sknp 1) ∧ decode 0b1111_0010_0000_1010 = .ok (.ldVxK 2) := by decide
theorem test_decode_classF :
    decode 0b1111_0001_0000_0111 = .ok (.ldVxDT 1) ∧ decode 0b1111_0011_0001_0101 = .ok (.ldDTVx 3) ∧
    decode 0b1111_0011_0001_1000 = .ok (.ldSTVx 3) ∧ decode 0b1111_0010_0001_1110 = .ok (.addI 2) ∧
    decode 0b1111_0011_0010_1001 = .ok (.ldF 3) ∧ decode 0b1111_0101_0011_0011 = .ok (.ldB 5) ∧
    decode 0b1111_0010_0101_0101 = .ok (.store 2) ∧ decode 0b1111_1111_0110_0101 = .ok (.load 15) := by decide
theorem test_decode_undefined :
    decode 0x5121 = .error (.undefined 0x5121) ∧ decode 0x8128 = .error (.undefined 0x8128) ∧
    decode 0x812F = .error (.undefined 0x812F) ∧ decode 0x912F = .error (.undefined 0x912F) ∧
    decode 0xE19F = .error (.undefined 0xE19F) ∧ decode 0xF0FF = .error (.undefined 0xF0FF) := by decide
theorem test_decode_bytes_big_endian : decodeBytes [0x81, 0x24, 0x99] = .ok (.add 1 2, [0x99]) := by decide
theorem test_decode_truncated : decodeBytes [0x81] = .error .truncated := by decide
theorem test_decodeTableWord : decodeTableWord 16 0xDAB1 = some (.drw 10 11 1) ∧ decodeTableWord 16 0x8128 = none := by
  decide

/-! ### Control flow -/

theorem test_sys : after (·.pc) 0x0123 start = some 0x202 := by decide -- T-CF-01
theorem test_sys_fault_policy : afterWith { Params.hardware with sysPolicy := .fault } 0 halt 0x0123 start =
    some (.halted, some ⟨.undefinedOpcode, some 0x0123, 0x200, none⟩, 0x200) := by decide -- T-CF-02
theorem test_ret : after (fun t => (t.pc, t.sp, t.stack[0]!)) 0x00EE
    { start with sp := 1, stack := start.stack.set 0 0x206 } = some (0x206, 0, 0x206) := by decide -- T-CF-04
theorem test_ret_underflow : after halt 0x00EE start =
    some (.halted, some ⟨.stackUnderflow, some 0x00EE, 0x200, none⟩, 0x200) := by decide -- T-CF-05
theorem test_jp : after (·.pc) 0x1204 start = some 0x204 := by decide -- T-CF-06
theorem test_call_sixteenth : after (fun t => (t.pc, t.sp, t.stack[15]!)) 0x2210 { start with sp := 15 } =
    some (0x210, 16, 0x202) := by decide -- T-CF-09
theorem test_call_overflow : after halt 0x2210 { start with sp := 16 } =
    some (.halted, some ⟨.stackOverflow, some 0x2210, 0x200, none⟩, 0x200) := by decide -- T-CF-10
theorem test_se_imm_taken : after (·.pc) 0x3105 (regs [(1, 0x05)] start) = some 0x204 := by decide -- T-CF-11
theorem test_se_imm_not_taken : after (·.pc) 0x3105 (regs [(1, 0x04)] start) = some 0x202 := by decide -- T-CF-12
theorem test_sne_imm_not_taken : after (·.pc) 0x4105 (regs [(1, 0x05)] start) = some 0x202 := by decide -- T-CF-13
theorem test_sne_imm_taken : after (·.pc) 0x4105 (regs [(1, 0x04)] start) = some 0x204 := by decide -- T-CF-14
theorem test_se_reg_taken : after (·.pc) 0x5120 (regs [(1, 9), (2, 9)] start) = some 0x204 := by decide -- T-CF-15
theorem test_se_reg_not_taken : after (·.pc) 0x5120 (regs [(1, 9), (2, 8)] start) = some 0x202 := by decide -- T-CF-16
theorem test_sne_reg_taken : after (·.pc) 0x9120 (regs [(1, 9), (2, 8)] start) = some 0x204 := by decide -- T-CF-18
theorem test_sne_reg_never : after (·.pc) 0x9110 (regs [(1, 3)] start) = some 0x202 := by decide -- T-CF-19
theorem test_jpV0 : after (·.pc) 0xB200 (regs [(1, 5)] start) = some 0x200 := by decide -- T-CF-23
theorem test_jpV0_beyond_memory : after (·.pc) 0xBFFF (regs [(0, 0xFF)] start) = some 0x10FE := by decide -- T-CF-24
theorem test_fetch_beyond_memory : see halt (step { start with pc := 0x10FE }) =
    some (.halted, some ⟨.addressOutOfRange, none, 0x10FE, some 0x10FE⟩, 0x10FE) := by decide -- T-CF-25
theorem test_skip_at_the_top : after (·.pc) 0x3000 { start with pc := 0xFFE } = some 0x1002 := by
  decide +kernel -- T-CF-26
theorem test_fetch_across_the_top : see halt (step (bytes 0xFFF [0x60] { start with pc := 0xFFF })) =
    some (.halted, some ⟨.addressOutOfRange, none, 0xFFF, some 0x1000⟩, 0xFFF) := by decide +kernel -- T-CF-27
theorem test_fetch_masked :
    see (fun t => (t.pc, t.getV 0))
      (stepWith { Params.hardware with addrPolicy := .mask } 0 (bytes 0xFFF [0x60] { start with pc := 0xFFF })) =
    some (0x1001, 0xF0) := by decide +kernel -- T-CF-28
theorem test_undefined : after halt 0x5121 (regs [(1, 9), (2, 9)] start) =
    some (.halted, some ⟨.undefinedOpcode, some 0x5121, 0x200, none⟩, 0x200) := by decide -- T-CF-20

/-! ### Register loads and ALU -/

theorem test_ld_imm : after (fun t => (t.getV 0xA, t.pc)) 0x6A3C start = some (0x3C, 0x202) := by decide -- T-AL-01
theorem test_ld_imm_odd_pc : see (fun t => (t.getV 0, t.pc)) (step (bytes 0x201 [0x60, 0xAA] { start with pc := 0x201 })) =
    some (0xAA, 0x203) := by decide -- T-CF-29
theorem test_add_imm_wraps : after alu 0x7101 (regs [(1, 0xFF), (VF, 0x33)] start) =
    some (0x00, 0x33, 0x202) := by decide -- T-AL-04
theorem test_mov : after alu 0x8120 (regs [(2, 0x11)] start) = some (0x11, 0x00, 0x202) := by decide -- T-AL-06
theorem test_or : after alu 0x8121 (regs [(1, 0x0F), (2, 0xF0), (VF, 0x55)] start) =
    some (0xFF, 0x55, 0x202) := by decide -- T-AL-07
theorem test_and : after alu 0x8122 (regs [(1, 0x3C), (2, 0x0F), (VF, 0x55)] start) =
    some (0x0C, 0x55, 0x202) := by decide -- T-AL-08
theorem test_xor : after alu 0x8123 (regs [(1, 0xFF), (2, 0x0F), (VF, 0x55)] start) =
    some (0xF0, 0x55, 0x202) := by decide -- T-AL-09
theorem test_add_256 : after alu 0x8124 (regs [(1, 0xFF), (2, 0x01)] start) =
    some (0x00, 0x01, 0x202) := by decide -- T-AL-14
theorem test_add_into_VF : after alu 0x8F14 (regs [(1, 0x01), (VF, 0xFF)] start) =
    some (0x01, 0x01, 0x202) := by decide -- T-AL-16
theorem test_sub_borrow : after alu 0x8125 (regs [(1, 0x05), (2, 0x0A)] start) =
    some (0xFB, 0x00, 0x202) := by decide -- T-AL-18
theorem test_sub_equal : after alu 0x8125 (regs [(1, 0x07), (2, 0x07)] start) =
    some (0x00, 0x01, 0x202) := by decide -- T-AL-20
theorem test_shr_ignores_Vy : after alu 0x8126 (regs [(1, 0x04), (2, 0xFF)] start) =
    some (0x02, 0x00, 0x202) := by decide -- T-AL-26
theorem test_shr_VF : after alu 0x8F06 (regs [(VF, 0x03)] start) = some (0x00, 0x01, 0x202) := by decide -- T-AL-27
theorem test_subn_no_borrow : after alu 0x8127 (regs [(1, 0x05), (2, 0x0A)] start) =
    some (0x05, 0x01, 0x202) := by decide -- T-AL-29
theorem test_subn_into_VF : after alu 0x8F17 (regs [(1, 0x03), (VF, 0x05)] start) =
    some (0x03, 0x00, 0x202) := by decide -- T-AL-31
theorem test_shl : after alu 0x810E (regs [(1, 0x81)] start) = some (0x02, 0x01, 0x202) := by decide -- T-AL-32
theorem test_shl_ignores_Vy : after alu 0x812E (regs [(1, 0x40), (2, 0x01)] start) =
    some (0x80, 0x00, 0x202) := by decide -- T-AL-35
theorem test_rnd_draw : afterWith Params.hardware 0xA7 alu 0xC10F start = some (0x07, 0x00, 0x202) := by
  decide -- T-AL-37
theorem test_rnd_counts_draws : after (fun t => (t.draws, t.pc)) 0xC10F start = some (1, 0x202) := by decide

/-! ### Index register and memory -/

theorem test_ld_I : after (fun t => (t.I, t.pc)) 0xA300 start = some (0x300, 0x202) := by decide -- T-IM-01
theorem test_add_I_wraps : after (fun t => (t.I, t.getV VF)) 0xF11E
    (regs [(1, 0x01), (VF, 0x77)] { start with I := 0xFFFF }) = some (0x000, 0x77) := by decide -- T-IM-03
theorem test_add_I_beyond_memory : after (fun t => (t.I, t.pc)) 0xF11E (regs [(1, 0x01)] { start with I := 0xFFF }) =
    some (0x1000, 0x202) := by decide -- T-IM-04
theorem test_ld_F_low_nibble : after (fun t => (t.I, t.pc)) 0xF329 (regs [(3, 0x1A)] start) =
    some (0x032, 0x202) := by decide -- T-IM-06
theorem test_ld_F_last_glyph : after (fun t => (t.I, t.pc)) 0xF029 (regs [(0, 0x0F)] start) =
    some (0x04B, 0x202) := by decide -- T-IM-07
theorem test_ld_B : after (three 0x300) 0xF533 (regs [(5, 0x9D)] { start with I := 0x300 }) =
    some [1, 5, 7] := by decide +kernel -- T-IM-08
theorem test_ld_B_protected :
    after (fun t => (halt t, three 0x1FF t)) 0xF533 (regs [(5, 0x7B)] { start with I := 0x1FF }) =
    some ((.halted, some ⟨.protectedWrite, some 0xF533, 0x200, some 0x1FF⟩, 0x200), [0x00, 0xF5, 0x33]) := by
  decide +kernel -- T-IM-12
theorem test_ld_B_allowed :
    afterWith { Params.hardware with lowWritePolicy := .allow } 0 (fun t => (t.pc, three 0x1FF t)) 0xF533
      (regs [(5, 0x7B)] { start with I := 0x1FF }) = some (0x202, [1, 2, 3]) := by decide +kernel -- T-IM-13
theorem test_ld_B_masked :
    afterWith { Params.hardware with addrPolicy := .mask, lowWritePolicy := .allow } 0
      (fun t => (t.pc, t.mem.read 0xFFE, t.mem.read 0xFFF, t.mem.read 0)) 0xF533
      (regs [(5, 0x7B)] { start with I := 0xFFE }) = some (0x202, 1, 2, 3) := by decide +kernel -- T-IM-16
theorem test_store_increment :
    afterWith { Params.hardware with lsIncrementI := true } 0 (fun t => (t.I, three 0x300 t)) 0xF255
      (regs [(0, 1), (1, 2), (2, 3)] { start with I := 0x300 }) = some (0x303, [1, 2, 3]) := by
  decide +kernel -- T-IM-18
theorem test_store_sixteen : after (fun t => (t.mem.read 0xFF0, t.mem.read 0xFFF, t.I, t.pc)) 0xFF55
    (regs [(0, 0x01), (VF, 0x10)] { start with I := 0xFF0 }) = some (0x01, 0x10, 0xFF0, 0x202) := by
  decide +kernel -- T-IM-20
theorem test_store_past_the_top : after (fun t => (halt t, t.mem.read 0xFF1)) 0xFF55
    (regs [(0, 0x01)] { start with I := 0xFF1 }) =
    some ((.halted, some ⟨.addressOutOfRange, some 0xFF55, 0x200, some 0x1000⟩, 0x200), 0) := by
  decide +kernel -- T-IM-21
theorem test_load_font : after (fun t => ([t.getV 0, t.getV 1, t.getV 4, t.getV 5], t.I)) 0xF465 start =
    some ([0xF0, 0x90, 0xF0, 0x00], 0x000) := by decide +kernel -- T-IM-23
theorem test_load_past_the_top : after (fun t => (halt t, t.getV 0)) 0xF165
    (regs [(0, 0x11)] (bytes 0xFFF [0x99] { start with I := 0xFFF })) =
    some ((.halted, some ⟨.addressOutOfRange, some 0xF165, 0x200, some 0x1000⟩, 0x200), 0x11) := by
  decide +kernel -- T-IM-25

/-! ### Framebuffer -/

theorem test_cls : after (fun t => (lit t, t.pc)) 0x00E0 (pixels [(0, 0), (10, 10), (63, 31)] start) =
    some ([], 0x202) := by decide +kernel -- T-DR-01
theorem test_drw_glyph : after (fun t => (lit t, t.getV VF)) 0xD015 start =
    some ([(0, 0), (1, 0), (2, 0), (3, 0), (0, 1), (3, 1), (0, 2), (3, 2), (0, 3), (3, 3),
      (0, 4), (1, 4), (2, 4), (3, 4)], 0x00) := by decide +kernel -- T-DR-02
theorem test_drw_collision : after (fun t => (lit t, t.getV VF)) 0xD011
    (pixels [(2, 0), (5, 0)] (bytes 0x300 [0x81] (regs [(0, 0x02)] { start with I := 0x300 }))) =
    some ([(5, 0), (9, 0)], 0x01) := by decide +kernel -- T-DR-10
theorem test_drw_right_clip : after (fun t => (lit t, t.getV VF)) 0xDAB1
    (bytes 0x300 [0xFF] (regs [(0xA, 0x3C)] { start with I := 0x300 })) =
    some ([(60, 0), (61, 0), (62, 0), (63, 0)], 0x00) := by decide +kernel -- T-DR-03

/-! ### Keys and timers -/

theorem test_skp_taken : after (·.pc) 0xE19E (regs [(1, 5)] { start with key := some 5 }) = some 0x204 := by
  decide -- T-KT-01
theorem test_skp_all_bits : after (·.pc) 0xE19E (regs [(1, 0x15)] { start with key := some 5 }) = some 0x202 := by
  decide -- T-KT-03
theorem test_sknp_not_taken : after (·.pc) 0xE1A1 (regs [(1, 5)] { start with key := some 5 }) = some 0x202 := by
  decide -- T-KT-05
theorem test_sknp_no_key : after (·.pc) 0xE1A1 start = some 0x204 := by decide -- T-KT-06
theorem test_wait_no_key : after (fun t => (t.status, t.pc, t.getV 2)) 0xF20A start =
    some (.awaitingKey, 0x200, 0x00) := by decide -- T-KT-09
theorem test_wait_key : after (fun t => (t.status, t.pc, t.getV 2)) 0xF20A { start with key := some 7 } =
    some (.running, 0x202, 0x07) := by decide -- T-KT-10
theorem test_ld_Vx_DT : after alu 0xF107 { start with DT := 20 } = some (0x14, 0x00, 0x202) := by decide -- T-KT-12
theorem test_ld_DT_Vx : after (fun t => (t.DT, t.pc)) 0xF015 (regs [(0, 0x14)] start) = some (20, 0x202) := by
  decide -- T-KT-13
theorem test_ld_ST_Vx : after (fun t => (t.ST, t.pc)) 0xF318 (regs [(3, 0x02)] start) = some (2, 0x202) := by
  decide -- T-KT-15

/-! ### Transactions, memory, assembly -/

theorem test_tick_floor : see (fun t => (t.DT, t.ST)) (transact Params.hardware .tick { start with ST := 1 }) =
    some (0, 0) := by decide -- T-HX-02
theorem test_tick_halted : see (·.DT) (transact Params.hardware .tick { start with status := .halted, DT := 5 }) =
    some 5 := by decide -- T-HX-04
theorem test_setKey_refused : refusal (setKey (some 16) start) = some (.keyOutOfRange 16) := by decide
theorem test_reset : see (fun t => ((t.status, t.pc, t.sp, t.key), three 0x200 t, three 0x04D t))
    (transact Params.hardware (.reset [0x12, 0x00]) { start with status := .halted, sp := 16, key := some 4 }) =
    some ((.running, 0x200, 0, some 4), [0x12, 0x00, 0x00], [0xF0, 0x80, 0x80]) := by decide +kernel -- T-HX-06
theorem test_pixel_query : (pixels [(3, 4)] start).queryPixel 3 4 = .ok true ∧
    (pixels [(3, 4)] start).queryPixel 4 3 = .ok false ∧
    start.queryPixel 64 0 = .error (.pixelOutOfRange 64 0) := by decide -- T-HX-10
theorem test_font : fontData.length = 80 ∧ Memory.resetByte 0x04B = 0xF0 ∧ Memory.resetByte 0x04F = 0x80 ∧
    Memory.resetByte 0x050 = 0 := by decide +kernel -- R27
theorem test_reset_memory_wf : State.reset.mem.wf := Memory.wf_nil
theorem test_memory_write_restores : Memory.write (Memory.write [] 0x300 7) 0x300 0 = [] := by decide +kernel
theorem test_assembly : assembly (.drw 10 11 1) = "DRW VA, VB, 1" ∧ assembly (.ldI 0x210) = "LD I, 0x210" ∧
    assembly (.addImm 1 0xFF) = "ADD V1, 0xFF" ∧ assembly (.store 1) = "LD [I], V1" := by decide -- P1, P3, P7

/-! ### Witnesses: states and operands that meet the hypotheses of the obligations -/

theorem next_of_see {r : Result} {P : State → Prop} [DecidablePred P]
    (h : see (fun t => decide (P t)) r = some true) : ∃ t, r = .next t ∧ P t := by
  cases r with
  | next t => exact ⟨t, rfl, by simpa [see] using h⟩
  | fault f => cases h
  | refused c => cases h

/-- This hardware with the alternative policies. -/
def masked : Params := { Params.hardware with addrPolicy := .mask, lowWritePolicy := .allow, lsIncrementI := true }

/-- The start state with an opcode at its pc. -/
def at200 (op : Nat) : State := start.withFetchWord 16 op

/-- Waiting for a key at an FX0A. -/
def waiting : State := { at200 0xF20A with status := .awaitingKey }

/-- After T-CF-10. -/
def halted : State :=
  { start with sp := 16, status := .halted, err := some ⟨.stackOverflow, some 0x2210, 0x200, none⟩ }

theorem witness_DecodeOfEncodeIsTheInstruction :
    (Instr.sys 0x0E1).wellFormed = true ∧ (Instr.drw 15 0 15).wellFormed = true ∧
    (Instr.ldImm 0 0xFF).wellFormed = true := by decide
theorem witness_EncodeOfDecodeIsTheOpcode : decode 0xFF65 = .ok (.load 15) ∧ decode 0x0000 = .ok (.sys 0) := by decide
theorem witness_UndefinedOpcodesAreThoseOfTheTable :
    decodeWith .fault 0x0123 = .error (.undefined 0x0123) ∧ decode 0x5121 = .error (.undefined 0x5121) := by decide
theorem witness_FetchReadsTheBigEndianPair :
    { start with pc := 0xFFE : State }.pc.toNat ≤ 0xFFE ∧ Params.hardware.addrPolicy = .fault ∧
    { start with pc := 0xFFF : State }.pc.toNat = 0xFFF ∧ 0x1000 ≤ { start with pc := 0x1000 : State }.pc.toNat ∧
    masked.addrPolicy = .mask := by decide
theorem witness_StepRunsTheDecodedInstruction_settles :
    let s := { start with pc := 0xFFE }.withFetchWord 16 0x6001
    s.status ≠ .halted ∧ s.pc.toNat ≤ 0xFFE ∧
    decode (opcodeOfBytes (s.mem.read s.pc.toNat) (s.mem.read (s.pc.toNat + 1))) = .ok (.ldImm 0 1) ∧
    ∃ t, exec (.ldImm 0 1) s = .next t ∧ t.status ≠ .halted := by
  refine ⟨by decide, by decide, by decide +kernel, next_of_see (by decide +kernel)⟩
theorem witness_StepRunsTheDecodedInstruction_raises :
    (at200 0x00EE).status ≠ .halted ∧ decode (opcodeOfBytes ((at200 0x00EE).mem.read 0x200)
      ((at200 0x00EE).mem.read 0x201)) = .ok .ret ∧
    ∃ t, exec .ret (at200 0x00EE) = .next t ∧ t.status = .halted := by
  refine ⟨by decide, by decide +kernel, next_of_see (by decide +kernel)⟩
theorem witness_StepRunsTheDecodedInstruction_waits :
    decode (opcodeOfBytes (waiting.mem.read waiting.pc.toNat) (waiting.mem.read (waiting.pc.toNat + 1))) =
      .ok (.ldVxK 2) ∧ waiting.status ≠ .halted ∧ waiting.pc.toNat ≤ 0xFFE := by decide +kernel
theorem witness_StepHaltsOnFetchAndDecodeErrors :
    0xFFE < { start with pc := 0xFFF : State }.pc.toNat ∧ start.status ≠ .halted ∧
    decode (opcodeOfBytes ((at200 0x5121).mem.read 0x200) ((at200 0x5121).mem.read 0x201)) =
      .error (.undefined 0x5121) := by decide +kernel
theorem witness_HaltedEngineLeavesOnlyByReset :
    halted.status = .halted ∧ ∃ t, transact Params.hardware (.reset []) halted = .next t ∧ t.status ≠ .halted :=
  ⟨rfl, next_of_see (by decide +kernel)⟩
theorem witness_FatalErrorIsPrecise : ∃ t, step (at200 0xF0FF) = .next t ∧ t.status = .halted :=
  next_of_see (by decide +kernel)
theorem witness_FatalErrorHasOneOfTheFiveCauses_fetch :
    ∃ t, step { start with pc := 0xFFF } = .next t ∧ t.status = .halted ∧
      t.err = some ⟨.addressOutOfRange, none, 0xFFF, some 0x1000⟩ := next_of_see (by decide +kernel)
theorem witness_FatalErrorHasOneOfTheFiveCauses_undefined :
    ∃ t, step (at200 0x8128) = .next t ∧ t.status = .halted ∧
      t.err = some ⟨.undefinedOpcode, some 0x8128, 0x200, none⟩ := next_of_see (by decide +kernel)
theorem witness_FatalErrorHasOneOfTheFiveCauses_overflow :
    ∃ t, step { at200 0x2210 with sp := 16 } = .next t ∧ t.status = .halted ∧
      t.err = some ⟨.stackOverflow, some 0x2210, 0x200, none⟩ := next_of_see (by decide +kernel)
theorem witness_FatalErrorHasOneOfTheFiveCauses_underflow :
    ∃ t, step (at200 0x00EE) = .next t ∧ t.status = .halted ∧
      t.err = some ⟨.stackUnderflow, some 0x00EE, 0x200, none⟩ := next_of_see (by decide +kernel)
theorem witness_FatalErrorHasOneOfTheFiveCauses_address :
    ∃ t, step { at200 0xFF65 with I := 0xFF1 } = .next t ∧ t.status = .halted ∧
      t.err = some ⟨.addressOutOfRange, some 0xFF65, 0x200, some 0x1000⟩ := next_of_see (by decide +kernel)
theorem witness_FatalErrorHasOneOfTheFiveCauses_protected :
    ∃ t, step { at200 0xF055 with I := 0x1FF } = .next t ∧ t.status = .halted ∧
      t.err = some ⟨.protectedWrite, some 0xF055, 0x200, some 0x1FF⟩ := next_of_see (by decide +kernel)
theorem witness_StatusAfterAStep :
    ErrorMatchesStatus (at200 0xF20A) ∧ (at200 0xF20A).status ≠ .halted ∧ (at200 0xF20A).key = none ∧
    fetch Params.hardware (at200 0xF20A) = .ok 0xF20A ∧
    ∃ t, step (at200 0xF20A) = .next t ∧ t.status = .awaitingKey := by
  refine ⟨by unfold ErrorMatchesStatus; decide, by decide, by decide, by decide +kernel, next_of_see (by decide +kernel)⟩
theorem waiting_atItsInstruction : WaitsAtWaitForKey waiting := fun _ => ⟨0xF20A, 2, by decide +kernel, by decide⟩
theorem witness_WaitingEngineIsRecallable :
    WaitsAtWaitForKey waiting ∧ waiting.status = .awaitingKey ∧ waiting.key = none ∧
    WaitsAtWaitForKey { waiting with key := some 15 } ∧
    ∃ t, step { waiting with key := some 15 } = .next t ∧ t.getV 2 = 15 :=
  ⟨waiting_atItsInstruction, rfl, rfl, waiting_atItsInstruction, next_of_see (by decide +kernel)⟩
theorem witness_StepIsTheSpecsStepForSomeDraw : ∃ t, step (at200 0xC10F) = .next t ∧ t.draws = 1 :=
  next_of_see (by decide +kernel)
theorem waiting_invariant : Invariant waiting where
  memory := by decide +kernel
  lowMemory := by unfold LowMemoryIntact; decide +kernel
  errorRecord := by unfold ErrorMatchesStatus; decide
  waiting := waiting_atItsInstruction
theorem witness_StepKeepsTheInvariant :
    Invariant waiting ∧ ∃ t, step waiting = .next t ∧ t.status = .awaitingKey :=
  ⟨waiting_invariant, next_of_see (by decide +kernel)⟩
theorem witness_TransactionsKeepTheInvariant :
    Invariant waiting ∧ (∃ t, transact Params.hardware (.setKey (some 15)) waiting = .next t ∧ t.key = some 15) ∧
    ∃ t, transact Params.hardware (.reset [0x12, 0x00]) waiting = .next t ∧ t.status = .running :=
  ⟨waiting_invariant, next_of_see (by decide +kernel), next_of_see (by decide +kernel)⟩
theorem witness_FirstErrorStaysUntilReset :
    halted.status = .halted ∧ (∀ rom, Transaction.reset rom ∉ [.tick, .setKey (some 3), .step 0xFF]) ∧
    ∃ t, runTransactions Params.hardware [.tick, .setKey (some 3), .step 0xFF] halted = .next t ∧ t.key = some 3 :=
  ⟨rfl, by simp, next_of_see (by decide +kernel)⟩
/-- At 0x300, a jump to itself. -/
def looping : State := { start with pc := 0x300 }.withFetchWord 16 0x1300

theorem witness_FixedPointsOfStepAreThese_halted : halted.status = .halted ∧ EndsAtFixedPoint halted := ⟨rfl, rfl⟩
theorem witness_FixedPointsOfStepAreThese_jump :
    looping.pc.toNat ≤ 0xFFE ∧ looping.status = .running ∧
    decode (opcodeOfBytes (looping.mem.read looping.pc.toNat) (looping.mem.read (looping.pc.toNat + 1))) =
      .ok (.jp 0x300) ∧ (0x300 : Addr12).toNat = looping.pc.toNat ∧
    see (fun t => decide (t = looping)) (step looping) = some true := by decide +kernel
theorem witness_FixedPointsOfStepAreThese_indexedJump :
    let s := regs [(0, 4)] (at200 0xB1FC)
    s.pc.toNat ≤ 0xFFE ∧ s.status = .running ∧
    decode (opcodeOfBytes (s.mem.read s.pc.toNat) (s.mem.read (s.pc.toNat + 1))) = .ok (.jpV0 0x1FC) ∧
    (0x1FC : Addr12).toNat + (s.getV 0).toNat = s.pc.toNat ∧ see (fun t => decide (t = s)) (step s) = some true := by
  decide +kernel
theorem witness_FixedPointsOfStepAreThese_waiting :
    waiting.pc.toNat ≤ 0xFFE ∧ waiting.status = .awaitingKey ∧ waiting.key = none ∧
    decode (opcodeOfBytes (waiting.mem.read waiting.pc.toNat) (waiting.mem.read (waiting.pc.toNat + 1))) =
      .ok (.ldVxK 2) ∧ see (fun t => decide (t = waiting)) (step waiting) = some true := by decide +kernel
theorem witness_RunAwaitingKeyStaysThere :
    WaitsAtWaitForKey { waiting with DT := 2 } ∧
    EndsAwaitingKey { waiting with DT := 2 } [.tick, .setKey none, .step 0xFF] ∧
    NoResetIn [.tick, .setKey none, .step 0xFF] ∧
    ∃ t, runTransactions Params.hardware [.tick, .setKey none, .step 0xFF] { waiting with DT := 2 } = .next t ∧
      t.DT = 1 :=
  ⟨waiting_atItsInstruction, ⟨rfl, rfl, by simp [NoKeyIn]⟩, by simp [NoResetIn], next_of_see (by decide +kernel)⟩
theorem witness_ProgramCounterAdvancesAsListed :
    start.status ≠ .halted ∧ (∃ t, exec (.jpV0 0xFFF) (regs [(0, 0xFF)] start) = .next t ∧ t.status ≠ .halted) ∧
    (∃ t, exec .ret { start with sp := 1 } = .next t ∧ t.status ≠ .halted) ∧
    (∃ t, exec (.seImm 0 0) { start with pc := 0xFFFE } = .next t ∧ t.status ≠ .halted) ∧
    (∃ t, exec (.skp 0) { start with key := some 0 } = .next t ∧ t.status ≠ .halted) ∧
    (∃ t, exec (.ldVxK 0) start = .next t ∧ t.status ≠ .halted) ∧ (∃ t, exec .cls start = .next t ∧ t.status ≠ .halted) ∧
    ∃ t, exec (.call 0) { start with sp := 16 } = .next t ∧ t.status = .halted :=
  ⟨by decide, next_of_see (by decide +kernel), next_of_see (by decide +kernel), next_of_see (by decide +kernel),
    next_of_see (by decide +kernel), next_of_see (by decide +kernel), next_of_see (by decide +kernel),
    next_of_see (by decide +kernel)⟩
theorem witness_RegisterAccessIsAsListed :
    let s := regs [(1, 250), (2, 10)] start
    let u := regs [(3, 99), (VF, 7)] s
    s.status ≠ .halted ∧ SameBut [.regs] s u ∧ u.fb = s.fb ∧ u.mem = s.mem ∧
    (∀ r ∈ registersRead (.add 1 2), u.getV r = s.getV r) ∧ u.getV 3 ≠ s.getV 3 ∧
    (∃ t, exec (.add 1 2) s = .next t ∧ t.status ≠ .halted) ∧ ∃ t, exec (.add 1 2) u = .next t ∧ t.status ≠ .halted := by
  refine ⟨by decide, ?_, rfl, rfl, by decide, by decide, next_of_see (by decide +kernel), next_of_see (by decide +kernel)⟩
  intro q hq
  cases q with
  | regs => exact absurd (by simp) hq
  | mem => exact fun _ => rfl
  | fb => exact fun _ _ => rfl
  | _ => rfl
theorem witness_OnlyStoresWriteMemory :
    let s := regs [(VF, 0x10)] { start with I := 0xFF0 }
    s.mem.wf ∧ ∃ t, exec (.store 15) s = .next t ∧ t.mem.read 0xFFF ≠ s.mem.read 0xFFF :=
  ⟨Memory.wf_nil, next_of_see (by decide +kernel)⟩
theorem witness_SpecialStateWrittenOnlyAsNamed :
    ∃ t, exec (.drw 0 0 5) start = .next t ∧ t.status ≠ .halted ∧ t.I = 0 := next_of_see (by decide +kernel)
theorem witness_TimersAndKeyReadOnlyAsNamed :
    ∃ t, exec (.ldVxDT 1) { start with DT := 20 } = .next t ∧ t.getV 1 = 20 := next_of_see (by decide +kernel)
theorem witness_StoreIsSeenByTheNextFetch :
    let s := regs [(0, 0x6A), (1, 0x42)] { start with I := 0x202 }
    s.mem.wf ∧ s.status = .running ∧ ∃ t, exec (.store 1) s = .next t ∧ t.status = .running ∧
      t.pc.toNat = s.I.toNat + 0 := ⟨Memory.wf_nil, rfl, next_of_see (by decide +kernel)⟩
theorem witness_PoliciesDecideTheAddressErrors :
    { masked with lowWritePolicy := .fault : Params }.addrPolicy = .mask ∧ masked.lowWritePolicy = .allow ∧
    ∃ t, stepWith { masked with lowWritePolicy := .fault } 0 { at200 0xF533 with I := 0xFFE } = .next t ∧
      t.status = .halted ∧ t.err = some ⟨.protectedWrite, some 0xF533, 0x200, some 0⟩ :=
  ⟨rfl, rfl, next_of_see (by decide +kernel)⟩
theorem witness_SysOnlyAdvances :
    (0x0E1 : Addr12) ≠ 0x0E0 ∧ (0x0E1 : Addr12) ≠ 0x0EE ∧ (at200 0x00E1).status ≠ .halted ∧
    fetch { Params.hardware with sysPolicy := .fault } (at200 0x00E1) =
      .ok (BitVec.ofNat 16 (0x0E1 : Addr12).toNat) := by decide +kernel
theorem witness_ReturnPopsOrUnderflows :
    0 < { start with sp := 1 : State }.sp.val ∧ 0 < { start with sp := 16 : State }.sp.val ∧ start.sp.val = 0 := by decide
theorem witness_CallPushesOrOverflows :
    start.sp.val < 16 ∧ { start with sp := 15 : State }.sp.val < 16 ∧ { start with sp := 16 : State }.sp.val = 16 ∧
    { start with sp := 11 : State }.sp.val < { Params.hardware with stackDepth := 12 : Params }.stackDepth.val ∧
    { start with sp := 12 : State }.sp.val = { Params.hardware with stackDepth := 12 : Params }.stackDepth.val := by
  decide
theorem witness_CallThenReturnComesBack : { start with sp := 15 : State }.sp.val < 16 := by decide
theorem witness_SkipsOnTwoRegisters : 0 < 1 ∧ 1 < 16 ∧ 0 < 15 ∧ 15 < 16 ∧
    (0x5FFF : Word) = BitVec.ofNat 16 (0x5000 + (15 : Reg).val * 0x100 + (15 : Reg).val * 0x10 + 15) := by decide
theorem witness_ArithmeticDestinations : (14 : Reg) ≠ VF ∧ (0 : Reg) ≠ VF := by decide
theorem witness_GlyphAddressOfTheLowNibble :
    Params.hardware.legal ∧ { Params.hardware with fontBase := 0x1B0 : Params }.legal := by decide
theorem witness_BcdStoreWritesThreeDigits :
    start.mem.wf ∧ 0x200 ≤ { start with I := 0x200 : State }.I.toNat ∧
    { start with I := 0xFFD : State }.I.toNat + 2 ≤ 0xFFF ∧ { start with I := 0x1FF : State }.I.toNat < 0x200 ∧
    0xFFF < { start with I := 0xFFE : State }.I.toNat + 2 := ⟨Memory.wf_nil, by decide⟩
theorem witness_BlockStoreWritesTheRegisterRange :
    start.mem.wf ∧ 0x200 ≤ { start with I := 0xFF0 : State }.I.toNat ∧
    { start with I := 0xFF0 : State }.I.toNat + (15 : Reg).val ≤ 0xFFF ∧
    { start with I := 0x1FF : State }.I.toNat < 0x200 ∧
    0xFFF < { start with I := 0xFF1 : State }.I.toNat + (15 : Reg).val := ⟨Memory.wf_nil, by decide⟩
theorem witness_BlockLoadReadsTheRegisterRange :
    { start with I := 0xFFF : State }.I.toNat + (0 : Reg).val ≤ 0xFFF ∧
    0xFFF < { start with I := 0xFFF : State }.I.toNat + (1 : Reg).val := by decide
theorem witness_TransfersUnderMaskAndIncrement :
    start.mem.wf ∧ masked.addrPolicy = .mask ∧ masked.lowWritePolicy = .allow := ⟨Memory.wf_nil, rfl, rfl⟩
/-- T-IM-14 to T-IM-16 and T-IM-12, T-IM-13: which of the clauses a transfer at I meets. -/
theorem witness_TransfersAtEveryParameterValue :
    let guarded := { masked with lowWritePolicy := .fault : Params }
    let allowed := { Params.hardware with lowWritePolicy := .allow : Params }
    start.mem.wf ∧
    (TargetsInMemory Params.hardware { start with I := 0xFFD } 3 ∧
      TargetsWritable Params.hardware { start with I := 0xFFD } 3) ∧
    ¬ TargetsInMemory Params.hardware { start with I := 0xFFE } 3 ∧
    (TargetsInMemory masked { start with I := 0xFFE } 3 ∧ TargetsWritable masked { start with I := 0xFFE } 3) ∧
    (TargetsInMemory guarded { start with I := 0xFFE } 3 ∧ FirstProtected guarded { start with I := 0xFFE } 3 2) ∧
    (TargetsInMemory allowed { start with I := 0x1FF } 3 ∧ TargetsWritable allowed { start with I := 0x1FF } 3) ∧
    FirstProtected Params.hardware { start with I := 0x1FF } 3 0 := by
  unfold TargetsInMemory TargetsWritable FirstProtected
  exact ⟨Memory.wf_nil, by decide⟩
theorem witness_SpriteDrawIsAClippedXor :
    ((0 : Count).val = 0 ∨ { start with I := 0xFFFF : State }.I.toNat + (0 : Count).val ≤ 0x1000) ∧
    { start with I := 0xFFF : State }.I.toNat + (1 : Count).val ≤ 0x1000 ∧
    0 < (2 : Count).val ∧ 0x1000 < { start with I := 0xFFF : State }.I.toNat + (2 : Count).val ∧
    (start.fb.flip 0 0).pixel 0 0 = true ∧ spriteBit { start with fb := start.fb.flip 0 0 } 0 0 5 0 0 = true := by
  decide +kernel
theorem witness_SpriteDrawAtEveryParameterValue :
    Params.hardware.addrPolicy = .fault ∧ masked.addrPolicy = .mask ∧
    (start.fb.flip 0 0).pixel 0 0 = true ∧
    spriteBitAt (· % 4096) { start with I := 0x1000, fb := start.fb.flip 0 0 } 0 0 5 0 0 = true := by decide +kernel
theorem witness_DrawingTwiceRestoresTheScreen :
    (10 : Reg) ≠ VF ∧ (11 : Reg) ≠ VF ∧
    ((1 : Count).val = 0 ∨ { start with I := 0xFFF : State }.I.toNat + (1 : Count).val ≤ 0x1000) ∧
    ((0 : Count).val = 0 ∨ { start with I := 0xFFFF : State }.I.toNat + (0 : Count).val ≤ 0x1000) := by decide
theorem witness_KeySkipsCompareTheLatch :
    { start with key := some 0 : State }.key = some 0 ∧ (0 : Key).val = (start.getV 0).toNat ∧
    (∀ k, start.key = some k → k.val ≠ (start.getV 0).toNat) ∧
    (∀ k, { start with key := some 15 : State }.key = some k → k.val ≠ (start.getV 0).toNat) := by decide
theorem witness_WaitForKeyWaitsOrTakesTheKey :
    start.key = none ∧ { start with key := some 15 : State }.key = some 15 := by decide
theorem witness_TickCountsBothTimersDown : halted.status = .halted ∧ start.status ≠ .halted := by decide
theorem witness_ResetRecreatesTheState :
    Params.hardware.legal ∧ (List.replicate 3584 (0 : Byte)).length ≤ 3584 ∧
    3584 < (List.replicate 3585 (0 : Byte)).length := by
  refine ⟨by decide, ?_, ?_⟩ <;> simp only [List.length_replicate, Nat.reduceLT, Nat.le_refl]
theorem witness_KeyAndQueriesOfTheHost :
    (16 ≤ 16) ∧ ((63 < 64) ∧ (31 < 32)) ∧ (64 ≤ 64 ∨ 32 ≤ 0) ∧ { start with ST := 1 : State }.ST.toNat ≠ 0 := by decide

end Sys2Proof.Tests
end

section
/-! PROOFS of the scope statements (spec/00_scope.md): what an execution can do in any instruction, said once, the three
ways a Step of a running engine ends, and from these the precise fatal error (R15) and the refinement of Step(rnd)
(R16). -/

namespace Sys2Proof.Machine

/-! ### What every instruction does: it completes or it raises (R15) -/

/-- What an instruction that completes keeps, whichever it is: the error record and the draw counter, and the status too,
but for FX0A, which sets it and never halts (R98). -/
structure Completes (i : Instr) (s t : State) : Prop where
  err : t.err = s.err
  draws : t.draws = s.draws
  status : t.status = s.status ∨ isWaitForKey i = true ∧ t.status ≠ .halted

theorem Completes.not_halted {i : Instr} {s t : State} (h : Completes i s t) (hs : s.status ≠ .halted) :
    t.status ≠ .halted := by
  rcases h.status with e | ⟨_, ht⟩
  · rwa [e]
  · exact ht

/-- FX0A with no key waits where it is (R98). -/
theorem execLdVxK_noKey (x : Reg) {s : State} (hk : s.key = none) :
    execLdVxK x s = .next { s with status := .awaitingKey } := by
  simp only [execLdVxK, hk]

/-- FX0A with a key in the latch takes it and runs on (R98). -/
theorem execLdVxK_key (x : Reg) {s : State} {k : Key} (hk : s.key = some k) :
    execLdVxK x s = .next ({ s.setV x (BitVec.ofNat 8 k.val) with status := .running }.advance 2) := by
  simp only [execLdVxK, hk]

theorem execLdVxK_completes {x : Reg} {s t : State} (h : execLdVxK x s = .next t) : Completes (.ldVxK x) s t := by
  cases hk : s.key with
  | none =>
    obtain rfl := Host.Outcome.next.inj ((execLdVxK_noKey x hk).symm.trans h)
    exact ⟨rfl, rfl, .inr ⟨rfl, nofun⟩⟩
  | some k =>
    obtain rfl := Host.Outcome.next.inj ((execLdVxK_key x hk).symm.trans h)
    exact ⟨rfl, rfl, .inr ⟨rfl, nofun⟩⟩

/-- An instruction completes, or it is the fatal error of its own opcode, raised from the state it began in. Only the
six that check can raise. -/
theorem execWith_completes_or_raises {p : Params} {rnd : Byte} {i : Instr} {s t : State}
    (h : execWith p rnd i s = .next t) : Completes i s t ∨ ∃ r, t = s.raise (some (encode i)) r := by
  cases i with
  | ret =>
    obtain ⟨_, rfl⟩ | ⟨_, rfl⟩ := execRet_cases h
    · exact .inl ⟨rfl, rfl, .inl rfl⟩
    · exact .inr ⟨_, rfl⟩
  | call nnn =>
    obtain ⟨_, rfl⟩ | ⟨_, rfl⟩ := callWith_cases h
    · exact .inl ⟨rfl, rfl, .inl rfl⟩
    · exact .inr ⟨_, rfl⟩
  | drw x y n =>
    obtain ⟨_, _, _, _, rfl⟩ | ⟨r, _, rfl⟩ := drwWith_cases h
    · exact .inl ⟨rfl, rfl, .inl rfl⟩
    · exact .inr ⟨r, rfl⟩
  | ldB x =>
    obtain ⟨_, _, rfl⟩ | ⟨r, _, rfl⟩ := ldBWith_cases h
    · exact .inl ⟨rfl, rfl, .inl rfl⟩
    · exact .inr ⟨r, rfl⟩
  | store x =>
    obtain ⟨_, _, rfl⟩ | ⟨r, _, rfl⟩ := storeWith_cases h
    · rw [State.bumpI_eq]
      exact .inl ⟨rfl, rfl, .inl rfl⟩
    · exact .inr ⟨r, rfl⟩
  | load x =>
    obtain ⟨_, _, rfl⟩ | ⟨r, _, rfl⟩ := loadWith_cases h
    · rw [State.bumpI_eq, State.setVFrom_eq]
      exact .inl ⟨rfl, rfl, .inl rfl⟩
    · exact .inr ⟨r, rfl⟩
  | ldVxK x => exact .inl (execLdVxK_completes h)
  | _ =>
    obtain rfl := Host.Outcome.next.inj h
    exact .inl ⟨rfl, rfl, .inl rfl⟩

/-! ### exec and execWith (R16) -/

/-- CXNN takes the free byte and counts it (R84; notes/assumptions/2.md); it is the one instruction that draws, and every
other executes as under this hardware's parameters and any draw. -/
theorem exec_cases {i : Instr} {s t : State} (h : exec i s = .next t) :
    (∃ x nn, i = .rnd x nn ∧ t = (s.noteDraw.setV x (s.drawn &&& nn)).advance 2) ∨
    ∀ rnd, execWith Params.hardware rnd i s = .next t := by
  cases i with
  | rnd x nn => exact .inl ⟨x, nn, rfl, (Host.Outcome.next.inj h).symm⟩
  | _ => exact .inr fun _ => h

/-- An execution is the spec's at the byte it would draw, the counter aside. -/
theorem execWith_drawn_of_exec {i : Instr} {s t : State} (h : exec i s = .next t) :
    execWith Params.hardware s.drawn i s = .next { t with draws := s.draws } := by
  obtain ⟨x, nn, rfl, rfl⟩ | hw := exec_cases h
  · rfl
  · have hd : t.draws = s.draws := by
      obtain hc | ⟨r, rfl⟩ := execWith_completes_or_raises (hw s.drawn)
      · exact hc.draws
      · rfl
    rw [hw, ← hd]

/-- An execution that leaves a running engine halted is the fatal error of its own opcode. -/
theorem exec_halted {i : Instr} {s t : State} (hs : s.status ≠ .halted) (h : exec i s = .next t)
    (ht : t.status = .halted) : ∃ r, t = s.raise (some (encode i)) r := by
  obtain ⟨x, nn, rfl, rfl⟩ | hw := exec_cases h
  · exact absurd ht hs
  · obtain hc | hr := execWith_completes_or_raises (hw s.drawn)
    · exact absurd ht (hc.not_halted hs)
    · exact hr

/-! ### The three ways a Step of a running engine ends (R57) -/

theorem runStep_fetch_error {p : Params} (f : Instr → State → Result) {s : State} {r : Raised}
    (hs : s.status ≠ .halted) (hf : fetch p s = .error r) : runStep p f s = .next (s.raise none r) := by
  rw [runStep_running p f hs, hf]

theorem runStep_decode_error {p : Params} (f : Instr → State → Result) {s : State} {op : Word} {e : DecodeError}
    (hs : s.status ≠ .halted) (hf : fetch p s = .ok op) (hd : decodeWith p.sysPolicy op = .error e) :
    runStep p f s = .next (s.raise (some op) ⟨.undefinedOpcode, none⟩) := by
  simp only [runStep_running p f hs, hf, hd]

theorem runStep_execute {p : Params} {f : Instr → State → Result} {s t : State} {op : Word} {i : Instr}
    (hs : s.status ≠ .halted) (hf : fetch p s = .ok op) (hd : decodeWith p.sysPolicy op = .ok i)
    (hx : f i s = .next t) : runStep p f s = .next (settle i t) := by
  simp only [runStep_running p f hs, hf, hd, hx, finish]

/-- Step adds no halt: a state that is halted after `settle` was halted before it, and is the same. -/
theorem settle_of_halted {i : Instr} {t : State} (h : (settle i t).status = .halted) :
    settle i t = t ∧ t.status = .halted := by
  unfold settle at h ⊢
  split at h
  · rename_i hc
    exact ⟨if_pos hc, h⟩
  · cases h

/-- The settling looks at the status alone, not at the counter of draws. -/
theorem settle_draws (i : Instr) (t : State) (n : Nat) :
    settle i { t with draws := n } = { settle i t with draws := n } := by
  unfold settle
  split <;> rfl

/-- A Step that halts a running engine is a fatal error and nothing more (R15). -/
theorem step_halted {s t : State} (hs : s.status ≠ .halted) (h : step s = .next t) (ht : t.status = .halted) :
    ∃ op r, t = s.raise op r := by
  obtain ⟨hh, _⟩ | ⟨_, r, _, rfl⟩ | ⟨_, op, _, _, _, rfl⟩ | ⟨_, _, i, u, _, _, hx, rfl⟩ := runStep_cases h
  · exact absurd hh hs
  · exact ⟨none, r, rfl⟩
  · exact ⟨some op, _, rfl⟩
  · obtain ⟨e, hu⟩ := settle_of_halted ht
    obtain ⟨r, hr⟩ := exec_halted hs hx hu
    exact ⟨_, r, e.trans hr⟩

/-! ### The statements -/

/-- Settles O10: a Step that halts has raised, and a raise writes the status and the record only. -/
theorem fatalErrorIsPrecise : Obligations.FatalErrorIsPrecise := by
  intro s t hs h ht
  obtain ⟨op, r, rfl⟩ := step_halted hs h ht
  exact ⟨⟨r.cause, op, s.pc, r.addr⟩, rfl, rfl, rfl⟩

/-- Settles O14: the draw is the byte the model's step would take next; it fetches, decodes and settles alike. -/
theorem stepIsTheSpecsStepForSomeDraw : Obligations.StepIsTheSpecsStepForSomeDraw := by
  intro s t h
  refine ⟨s.drawn, ?_⟩
  unfold stepWith
  obtain ⟨hh, rfl⟩ | ⟨hs, r, hf, rfl⟩ | ⟨hs, op, e, hf, hd, rfl⟩ | ⟨hs, op, i, u, hf, hd, hx, rfl⟩ := runStep_cases h
  · exact runStep_halted _ _ hh
  · exact runStep_fetch_error _ hs hf
  · exact runStep_decode_error _ hs hf hd
  · rw [← settle_draws]
    exact runStep_execute hs hf hd (execWith_drawn_of_exec hx)

end Sys2Proof.Machine
end

section
/-! PROOFS of the state statements (spec/10_state.md): the frame of every instruction, field by field; the status and the
error record a Step leaves (R31); the bytes it writes (R36, R44); the invariant; and what an instruction reads of the
timers and the latch (R28, R32) and of the registers (R21). -/

namespace Sys2Proof.Machine

/-! ### What an instruction writes: its frame, field by field -/

/-- Two states hold the same value in a field. Unlike `SameAt`, registers, memory and framebuffer are compared as
values, not through their reads. -/
def SameField (q : Part) (s t : State) : Prop :=
  match q with
  | .regs => t.V = s.V
  | .I => t.I = s.I
  | .pc => t.pc = s.pc
  | .sp => t.sp = s.sp
  | .stack => t.stack = s.stack
  | .DT => t.DT = s.DT
  | .ST => t.ST = s.ST
  | .mem => t.mem = s.mem
  | .fb => t.fb = s.fb
  | .status => t.status = s.status
  | .err => t.err = s.err
  | .key => t.key = s.key
  | .draws => t.draws = s.draws

/-- The fields an instruction may write when it completes (R21, R23 to R32, R59). -/
def fieldsWritten (i : Instr) : List Part :=
  match i with
  | .sys _ | .jp _ | .jpV0 _ | .seImm _ _ | .sneImm _ _ | .seReg _ _ | .sneReg _ _ | .skp _ | .sknp _ => [.pc]
  | .cls => [.fb, .pc]
  | .ret => [.sp, .pc]
  | .call _ => [.stack, .sp, .pc]
  | .ldImm _ _ | .addImm _ _ | .mov _ _ | .or _ _ | .and _ _ | .xor _ _ | .add _ _ | .sub _ _ | .shr _ _ | .subn _ _
  | .shl _ _ | .ldVxDT _ | .load _ => [.regs, .pc]
  | .rnd _ _ => [.regs, .pc, .draws]
  | .drw _ _ _ => [.regs, .fb, .pc]
  | .ldVxK _ => [.regs, .pc, .status]
  | .ldDTVx _ => [.DT, .pc]
  | .ldSTVx _ => [.ST, .pc]
  | .ldI _ | .addI _ | .ldF _ => [.I, .pc]
  | .ldB _ | .store _ => [.mem, .pc]

/-- `s` with the listed fields taken from `t`. -/
def State.overwritten (fields : List Part) (s t : State) : State where
  V := if fields.contains .regs then t.V else s.V
  I := if fields.contains .I then t.I else s.I
  pc := if fields.contains .pc then t.pc else s.pc
  sp := if fields.contains .sp then t.sp else s.sp
  stack := if fields.contains .stack then t.stack else s.stack
  DT := if fields.contains .DT then t.DT else s.DT
  ST := if fields.contains .ST then t.ST else s.ST
  mem := if fields.contains .mem then t.mem else s.mem
  fb := if fields.contains .fb then t.fb else s.fb
  status := if fields.contains .status then t.status else s.status
  err := if fields.contains .err then t.err else s.err
  key := if fields.contains .key then t.key else s.key
  draws := if fields.contains .draws then t.draws else s.draws

/-- A field that is not overwritten is kept. -/
theorem sameField_of_overwritten {fields : List Part} {s t : State} (h : t = s.overwritten fields t) {q : Part}
    (hq : q ∉ fields) : SameField q s t := by
  have hc : fields.contains q = false := by simpa using hq
  rw [h]
  cases q <;> simp only [SameField, State.overwritten, hc, Bool.false_eq_true, if_false]

/-- FX0A waits or takes the key (R98). -/
theorem execLdVxK_cases {x : Reg} {s t : State} (h : exec (.ldVxK x) s = .next t) :
    (s.key = none ∧ t = { s with status := .awaitingKey }) ∨
    ∃ k, s.key = some k ∧ t = { s.setV x (BitVec.ofNat 8 k.val) with status := .running }.advance 2 := by
  by_cases hk : s.key = none
  · exact .inl ⟨hk, Host.Outcome.next.inj (h.symm.trans (execLdVxK_noKey x hk))⟩
  · obtain ⟨k, hk⟩ := Option.ne_none_iff_exists'.mp hk
    exact .inr ⟨k, hk, Host.Outcome.next.inj (h.symm.trans (execLdVxK_key x hk))⟩

/-- An instruction that completes changes no field but those it writes. -/
theorem exec_overwrites_or_raises {i : Instr} {s t : State} (h : exec i s = .next t) :
    t = s.overwritten (fieldsWritten i) t ∨ ∃ r, t = s.raise (some (encode i)) r := by
  cases i with
  | ret =>
    obtain ⟨_, rfl⟩ | ⟨_, rfl⟩ := execRet_cases h
    · exact .inl rfl
    · exact .inr ⟨_, rfl⟩
  | call nnn =>
    obtain ⟨_, rfl⟩ | ⟨_, rfl⟩ := callWith_cases h
    · exact .inl rfl
    · exact .inr ⟨_, rfl⟩
  | drw x y n =>
    obtain ⟨_, _, _, _, rfl⟩ | ⟨r, _, rfl⟩ := drwWith_cases h
    · exact .inl rfl
    · exact .inr ⟨r, rfl⟩
  | ldB x =>
    obtain ⟨_, _, rfl⟩ | ⟨r, _, rfl⟩ := ldBWith_cases h
    · exact .inl rfl
    · exact .inr ⟨r, rfl⟩
  | store x =>
    obtain ⟨_, _, rfl⟩ | ⟨r, _, rfl⟩ := storeWith_cases h
    · exact .inl rfl
    · exact .inr ⟨r, rfl⟩
  | load x =>
    obtain ⟨_, _, rfl⟩ | ⟨r, _, rfl⟩ := loadWith_cases h
    · rw [State.setVFrom_eq]
      exact .inl rfl
    · exact .inr ⟨r, rfl⟩
  | ldVxK x =>
    obtain ⟨_, rfl⟩ | ⟨_, _, rfl⟩ := execLdVxK_cases h
    · exact .inl rfl
    · exact .inl rfl
  | _ =>
    obtain rfl := Host.Outcome.next.inj h
    exact .inl rfl

/-- No instruction that completes writes the error record. -/
theorem err_not_mem_fieldsWritten (i : Instr) : Part.err ∉ fieldsWritten i := by
  cases i <;> simp [fieldsWritten]

/-- A field that an instruction does not write is kept, raise or not; a raise writes status and record besides. -/
theorem exec_keeps_field {i : Instr} {s t : State} (h : exec i s = .next t) {q : Part} (hq : q ∉ fieldsWritten i)
    (hr : t.status ≠ .halted ∨ q ≠ .status ∧ q ≠ .err) : SameField q s t := by
  obtain hw | ⟨r, rfl⟩ := exec_overwrites_or_raises h
  · exact sameField_of_overwritten hw hq
  · obtain hn | ⟨hs, he⟩ := hr
    · exact absurd rfl hn
    · cases q with
      | status => exact absurd rfl hs
      | err => exact absurd rfl he
      | _ => rfl

/-- Settles O24: each clause is `exec_keeps_field` at one field, and the hypotheses rule out the instructions whose row
of `fieldsWritten` names it. -/
theorem specialStateWrittenOnlyAsNamed : Obligations.SpecialStateWrittenOnlyAsNamed := by
  intro i s t h
  have keep (q : Part) (hq : q ≠ .status ∧ q ≠ .err) (hw : q ∉ fieldsWritten i) : SameField q s t :=
    exec_keeps_field h hw (.inr hq)
  have keepRunning (q : Part) (ht : t.status ≠ .halted) (hw : q ∉ fieldsWritten i) : SameField q s t :=
    exec_keeps_field h hw (.inl ht)
  refine ⟨fun _ _ => keep .I (by decide) ?_, fun _ => keep .stack (by decide) ?_, fun _ _ => keep .sp (by decide) ?_,
    fun _ => keep .DT (by decide) ?_, fun _ => keep .ST (by decide) ?_, fun _ _ => keep .fb (by decide) ?_,
    keep .key (by decide) ?_,
    fun ht => ⟨keepRunning .err ht (err_not_mem_fieldsWritten i), fun _ => keepRunning .status ht ?_⟩,
    fun _ => keep .draws (by decide) ?_⟩
  all_goals
    clear h keep keepRunning
    cases i <;> simp_all [fieldsWritten]

/-! ### What a Step leaves in the status and the error record (R31) -/

@[simp] theorem settle_mem (i : Instr) (t : State) : (settle i t).mem = t.mem := by rw [settle_eq]
@[simp] theorem settle_err (i : Instr) (t : State) : (settle i t).err = t.err := by rw [settle_eq]

theorem isWaitForKey_iff {i : Instr} : isWaitForKey i = true ↔ ∃ x, i = .ldVxK x := by
  cases i <;> simp [isWaitForKey]

/-- The settling makes no engine wait: one that waits after it waited before it, in FX0A. -/
theorem settle_awaitingKey {i : Instr} {t : State} (h : (settle i t).status = .awaitingKey) :
    (∃ x, i = .ldVxK x) ∧ settle i t = t := by
  unfold settle at h ⊢
  split at h
  · rename_i hc
    obtain hw | hh := hc
    · exact ⟨isWaitForKey_iff.mp hw, if_pos (.inl hw)⟩
    · rw [hh] at h; cases h
  · cases h

theorem settle_halted (i : Instr) {t : State} (h : t.status = .halted) : settle i t = t := if_pos (.inr h)

theorem step_of_halted {s t : State} (hs : s.status = .halted) (h : step s = .next t) : t = s :=
  Host.Outcome.next.inj (h.symm.trans (runStep_halted _ _ hs))

/-- A Step from a running or waiting engine that does not halt it writes no error record. -/
theorem step_keeps_err {s t : State} (hs : s.status ≠ .halted) (h : step s = .next t) (ht : t.status ≠ .halted) :
    t.err = s.err := by
  obtain ⟨hh, _⟩ | ⟨_, r, _, rfl⟩ | ⟨_, op, _, _, _, rfl⟩ | ⟨_, _, i, u, _, _, hx, rfl⟩ := runStep_cases h
  · exact absurd hh hs
  · exact absurd rfl ht
  · exact absurd rfl ht
  · have hu : u.status ≠ .halted := fun hu => ht (congrArg State.status (settle_halted i hu) |>.trans hu)
    exact (settle_err i u).trans (exec_keeps_field hx (err_not_mem_fieldsWritten i) (.inl hu))

/-- Halted and the error record still agree after a Step (R31). -/
theorem step_keeps_errorMatchesStatus {s t : State} (hi : ErrorMatchesStatus s) (h : step s = .next t) :
    ErrorMatchesStatus t := by
  by_cases hs : s.status = .halted
  · obtain rfl := step_of_halted hs h
    exact hi
  · by_cases ht : t.status = .halted
    · obtain ⟨op, r, rfl⟩ := step_halted hs h ht
      exact iff_of_true rfl nofun
    · have hn : s.err = none := not_not.mp fun he => hs (hi.mpr he)
      exact iff_of_false ht (not_not.mpr ((step_keeps_err hs h ht).trans hn))

/-- FX0A with no key in the latch waits, and nothing but the status changes (R61, R98). -/
theorem step_waitForKey {s : State} {op : Word} {x : Reg} (hs : s.status ≠ .halted) (hk : s.key = none)
    (hf : fetch Params.hardware s = .ok op) (hd : decode op = .ok (.ldVxK x)) :
    step s = .next { s with status := .awaitingKey } :=
  runStep_execute hs hf hd (execLdVxK_noKey x hk)

/-- A Step that leaves the engine waiting fetched FX0A with no key in the latch, and changed nothing but the status. -/
theorem step_awaitingKey {s t : State} (hs : s.status ≠ .halted) (h : step s = .next t)
    (ht : t.status = .awaitingKey) : t = { s with status := .awaitingKey } ∧ s.key = none ∧
      ∃ (op : Word) (x : Reg), fetch Params.hardware s = .ok op ∧ decode op = .ok (.ldVxK x) := by
  obtain ⟨hh, _⟩ | ⟨_, r, _, rfl⟩ | ⟨_, op, _, _, _, rfl⟩ | ⟨_, op, i, u, hf, hd, hx, rfl⟩ := runStep_cases h
  · exact absurd hh hs
  · cases ht
  · cases ht
  · obtain ⟨⟨x, rfl⟩, e⟩ := settle_awaitingKey ht
    rw [e] at ht ⊢
    obtain ⟨hk, rfl⟩ | ⟨_, _, rfl⟩ := execLdVxK_cases hx
    · exact ⟨rfl, hk, op, x, hf, hd⟩
    · cases ht

/-- Settles O12: the agreement of Halted and the record is kept, and the wait is exactly that of FX0A with no key. -/
theorem statusAfterAStep : Obligations.StatusAfterAStep := by
  refine ⟨rfl, fun s t hi h => ⟨step_keeps_errorMatchesStatus hi h, fun hs => ⟨fun ht => ?_, ?_⟩, fun _ => rfl⟩⟩
  · exact (step_awaitingKey hs h ht).2
  · rintro ⟨hk, op, x, hf, hd⟩
    obtain rfl := Host.Outcome.next.inj ((step_waitForKey hs hk hf hd).symm.trans h)
    rfl

/-! ### What a Step writes to memory (R36, R40, R44) -/

/-- How many bytes an instruction stores from I on (R90, R91). -/
def bytesStored (i : Instr) : Nat :=
  match i with
  | .ldB _ => 3
  | .store x => rangeLength x
  | _ => 0

theorem resolveRange_of_writeTargets {p : Params} {base n : Nat} {ms : List Nat}
    (h : writeTargets p base n = .ok ms) : resolveRange p base n = .ok ms := by
  unfold writeTargets at h
  split at h
  · cases h
  · rename_i hr
    split at h
    · cases h
    · rw [hr, h]

/-- Under `fault` a range that resolves is the range itself (R43). -/
theorem resolveRange_fault_ok {p : Params} (hp : p.addrPolicy = .fault) {base n : Nat} {ms : List Nat}
    (h : resolveRange p base n = .ok ms) : ms = List.range' base n := by
  by_cases hr : base + n ≤ 0x1000
  · exact Except.ok.inj (h.symm.trans (resolveRange_inRange p hr))
  · obtain rfl | hn := Nat.eq_zero_or_pos n
    · exact (Except.ok.inj h).symm
    · rw [resolveRange_fault hp (by omega) hn] at h
      cases h

/-- The write targets of this hardware lie in the n bytes from the base on, above the low memory and inside memory. -/
theorem mem_writeTargets_hardware {base n a : Nat} {ms : List Nat} (h : writeTargets Params.hardware base n = .ok ms)
    (ha : a ∈ ms) : (base ≤ a ∧ a < base + n) ∧ 0x200 ≤ a ∧ a < Config.memSize := by
  obtain ⟨_, hsize, hlow⟩ := writeTargets_ok h
  refine ⟨?_, hlow rfl a ha, hsize a ha⟩
  rw [resolveRange_fault_ok rfl (resolveRange_of_writeTargets h)] at ha
  exact List.mem_range'_1.mp ha

/-- The memory an instruction leaves is that it found with bytes written in the range it stores, all of them above the
low memory and inside memory; but for FX33 and FX55 the range is empty. -/
theorem exec_stores {i : Instr} {s t : State} (h : exec i s = .next t) : ∃ ws : List (Nat × Byte),
    t.mem = s.mem.writeAll ws ∧ ∀ w ∈ ws, (s.I.toNat ≤ w.1 ∧ w.1 < s.I.toNat + bytesStored i) ∧
      0x200 ≤ w.1 ∧ w.1 < Config.memSize := by
  by_cases hm : Part.mem ∈ fieldsWritten i
  · cases i with
    | ldB x =>
      obtain ⟨ms, hw, rfl⟩ | ⟨r, _, rfl⟩ := ldBWith_cases h
      · exact ⟨_, rfl, fun w hm => mem_writeTargets_hardware hw (List.of_mem_zip hm).1⟩
      · exact ⟨[], rfl, nofun⟩
    | store x =>
      obtain ⟨ms, hw, rfl⟩ | ⟨r, _, rfl⟩ := storeWith_cases h
      · exact ⟨_, rfl, fun w hm => mem_writeTargets_hardware hw (List.of_mem_zip hm).1⟩
      · exact ⟨[], rfl, nofun⟩
    | _ => simp [fieldsWritten] at hm
  · exact ⟨[], exec_keeps_field h hm (.inr (by decide)), nofun⟩

/-- Settles O23: an address outside the range an instruction stores reads as before, and only FX33 and FX55 have one. -/
theorem onlyStoresWriteMemory : Obligations.OnlyStoresWriteMemory := by
  intro i s t hm h a ha
  obtain ⟨ws, hw, hr⟩ := exec_stores h
  have hin : s.I.toNat ≤ a ∧ a < s.I.toNat + bytesStored i := by
    by_contra hn
    have hsize (w) (hws : w ∈ ws) : w.1 < Config.memSize := by
      obtain ⟨_, _, h⟩ := hr w hws
      exact h
    exact ha (hw ▸ Memory.read_writeAll_of_not_mem ws a hm hsize fun w hws e => hn (e ▸ (hr w hws).1))
  cases i with
  | ldB x => exact .inl ⟨x, rfl, hin.1, by simpa [bytesStored] using Nat.le_of_lt_succ hin.2⟩
  | store x => exact .inr ⟨x, rfl, hin.1, Nat.le_of_lt_succ hin.2⟩
  | _ => exact absurd hin.2 (Nat.not_lt.mpr hin.1)

/-- Every byte a Step writes lies at 0x200 or above and inside memory (R43, R44). -/
theorem step_stores {s t : State} (h : step s = .next t) : ∃ ws : List (Nat × Byte),
    t.mem = s.mem.writeAll ws ∧ ∀ w ∈ ws, 0x200 ≤ w.1 ∧ w.1 < Config.memSize := by
  obtain ⟨_, rfl⟩ | ⟨_, r, _, rfl⟩ | ⟨_, op, _, _, _, rfl⟩ | ⟨_, _, i, u, _, _, hx, rfl⟩ := runStep_cases h
  · exact ⟨[], rfl, nofun⟩
  · exact ⟨[], rfl, nofun⟩
  · exact ⟨[], rfl, nofun⟩
  · obtain ⟨ws, hw, hr⟩ := exec_stores hx
    exact ⟨ws, (settle_mem i u).trans hw, fun w hm => (hr w hm).2⟩

/-! ### The invariant -/

/-- Settles O15: nothing is written, nothing has failed and nothing waits after Reset. -/
theorem invariantHoldsAtReset : Obligations.InvariantHoldsAtReset where
  memory := Memory.wf_nil
  lowMemory := fun a _ => Memory.read_nil a
  errorRecord := iff_of_false nofun (not_not.mpr rfl)
  waiting := nofun

theorem step_keeps_wf {s t : State} (hm : s.mem.wf) (h : step s = .next t) : t.mem.wf := by
  obtain ⟨ws, hw, hr⟩ := step_stores h
  exact hw ▸ Memory.writeAll_wf ws hm fun w hws => (hr w hws).2

theorem step_keeps_lowMemory {s t : State} (hm : s.mem.wf) (hl : LowMemoryIntact s) (h : step s = .next t) :
    LowMemoryIntact t := by
  obtain ⟨ws, hw, hr⟩ := step_stores h
  intro a ha
  rw [hw, Memory.read_writeAll_of_not_mem ws a hm (fun w hws => (hr w hws).2) fun w hws e => ?_]
  · exact hl a ha
  · have := (hr w hws).1
    omega

/-- A wait begins and goes on at its FX0A: the Step that leaves the engine waiting leaves pc and memory too (R61). -/
theorem step_keeps_wait {s t : State} (hw : WaitsAtWaitForKey s) (h : step s = .next t) : WaitsAtWaitForKey t := by
  intro ht
  by_cases hs : s.status = .halted
  · obtain rfl := step_of_halted hs h
    exact hw ht
  · obtain ⟨rfl, _, hfetched⟩ := step_awaitingKey hs h ht
    exact hfetched

/-- Settles O16: each part of the invariant is kept, the low memory with the help of the canonical form. -/
theorem stepKeepsTheInvariant : Obligations.StepKeepsTheInvariant := by
  intro s t hi h
  obtain ⟨hmem, hlow, herr, hwait⟩ := hi
  exact ⟨step_keeps_wf hmem h, step_keeps_lowMemory hmem hlow h, step_keeps_errorMatchesStatus herr h,
    step_keeps_wait hwait h⟩

/-! ### An instruction with checks from two states -/

/-- A change of state that a raise does not see commutes with an instruction whose checked result it commutes with. -/
theorem State.attempt_commutes (f : State → State) {s t : State} {i : Instr} {c c' : Except Raised State}
    (h : s.attempt i c = .next t) (hf : ∀ op r, (f s).raise op r = f (s.raise op r)) (hc : c' = c.map f) :
    (f s).attempt i c' = .next (f t) := by
  subst hc
  obtain rfl | ⟨r, rfl, rfl⟩ := State.attempt_next h
  · rfl
  · exact congrArg Host.Outcome.next (hf _ r)

/-- A change of state goes past the addresses an instruction resolved if it goes past what the instruction does at
them. -/
theorem map_checked {α ε : Type} {f : State → State} {g g' : α → State} {c : Except ε α}
    (hg : ∀ a, g' a = f (g a)) : c.map g' = (c.map g).map f := by
  cases c with
  | error e => rfl
  | ok a => exact congrArg Except.ok (hg a)

/-- The same for an instruction whose check is a test. -/
theorem map_checked_dite {P : Prop} [Decidable P] {α ε : Type} {f : α → α} {c d : P → Except ε α}
    {c' d' : ¬ P → Except ε α} (hc : ∀ h, d h = (c h).map f) (hc' : ∀ h, d' h = (c' h).map f) :
    dite P d d' = (dite P c c').map f := by
  by_cases h : P
  · rw [dif_pos h, dif_pos h, hc]
  · rw [dif_neg h, dif_neg h, hc']

theorem State.attempt_map_ok {α : Type} (s : State) (i : Instr) (g : α → State) {c : Except Raised α} {a : α}
    (h : c = .ok a) : s.attempt i (c.map g) = .next (g a) := by
  rw [h]; rfl

theorem State.attempt_map_error {α : Type} (s : State) (i : Instr) (g : α → State) {c : Except Raised α} {r : Raised}
    (h : c = .error r) : s.attempt i (c.map g) = .next (s.raise (some (encode i)) r) := by
  rw [h]; rfl

/-! ### What an instruction reads: the timers and the key latch (R28, R32) -/

/-- `s` with the sound timer, the delay timer and the key latch changed. -/
def State.mapInputs (a b : Byte → Byte) (c : Option Key → Option Key) (s : State) : State :=
  { s with ST := a s.ST, DT := b s.DT, key := c s.key }

theorem State.setVFrom_mapInputs (a b : Byte → Byte) (c : Option Key → Option Key) (bs : List Byte) :
    ∀ (s : State) (k : Nat), (s.mapInputs a b c).setVFrom k bs = (s.setVFrom k bs).mapInputs a b c := by
  induction bs with
  | nil => intro s k; rfl
  | cons v bs ih => intro s k; exact ih { s with V := s.V.setIfInBounds k v } (k + 1)

/-- A change of the timers and the latch commutes with an instruction that neither reads nor writes what it changes. -/
theorem exec_mapInputs {a b : Byte → Byte} {c : Option Key → Option Key} {i : Instr} {s t : State}
    (hST : ∀ x, i = .ldSTVx x → a = id) (hDT : ∀ x, i = .ldVxDT x ∨ i = .ldDTVx x → b = id)
    (hkey : ∀ x, i = .skp x ∨ i = .sknp x ∨ i = .ldVxK x → c = id) (h : exec i s = .next t) :
    exec i (s.mapInputs a b c) = .next (t.mapInputs a b c) := by
  have raises (op : Option Word) (r : Raised) :
      (s.mapInputs a b c).raise op r = State.mapInputs a b c (s.raise op r) := rfl
  cases i with
  | ret => exact State.attempt_commutes _ h raises (map_checked_dite (fun _ => rfl) fun _ => rfl)
  | call nnn => exact State.attempt_commutes _ h raises (map_checked_dite (fun _ => rfl) fun _ => rfl)
  | drw x y n => exact State.attempt_commutes _ h raises (map_checked fun _ => rfl)
  | ldB x => exact State.attempt_commutes _ h raises (map_checked fun _ => rfl)
  | store x => exact State.attempt_commutes _ h raises (map_checked fun _ => rfl)
  | load x =>
    exact State.attempt_commutes _ h raises
      (map_checked fun ms => congrArg (State.advance · 2) (State.setVFrom_mapInputs a b c _ s 0))
  | ldSTVx x =>
    obtain rfl := hST x rfl
    obtain rfl := Host.Outcome.next.inj h
    rfl
  | ldVxDT x | ldDTVx x =>
    obtain rfl := hDT x (by simp)
    obtain rfl := Host.Outcome.next.inj h
    rfl
  | skp x | sknp x =>
    obtain rfl := hkey x (by simp)
    obtain rfl := Host.Outcome.next.inj h
    rfl
  | ldVxK x =>
    obtain rfl := hkey x (by simp)
    obtain ⟨hk, rfl⟩ | ⟨_, hk, rfl⟩ := execLdVxK_cases h
    · exact execLdVxK_noKey x hk
    · exact execLdVxK_key x hk
  | _ =>
    obtain rfl := Host.Outcome.next.inj h
    rfl

/-- Settles O25: each clause changes one of the three inputs to a constant and keeps the other two. -/
theorem timersAndKeyReadOnlyAsNamed : Obligations.TimersAndKeyReadOnlyAsNamed := by
  intro i s t h
  have keep {α : Type} {f : α → α} {P : Reg → Prop} (hn : ∀ x, ¬ P x) : ∀ x, P x → f = id :=
    fun x hx => absurd hx (hn x)
  refine ⟨fun hi v => ?_, fun hi v => ?_, fun hi k => ?_⟩
  · exact exec_mapInputs (a := fun _ => v) (b := id) (c := id) (keep hi) (fun _ _ => rfl) (fun _ _ => rfl) h
  · exact exec_mapInputs (a := id) (b := fun _ => v) (c := id) (fun _ _ => rfl) (keep fun x => not_or.mpr (hi x))
      (fun _ _ => rfl) h
  · exact exec_mapInputs (a := id) (b := id) (c := fun _ => k) (fun _ _ => rfl) (fun _ _ => rfl)
      (keep fun x => not_or.mpr ((hi x).imp_right not_or.mpr)) h

/-! ### What an instruction reads and writes: the registers (R21) -/

/-- The registers of a completed load of V0..Vx are the bytes loaded (R92). -/
theorem State.getV_setVFrom_of_lt {bs : List Byte} (s : State) {q : Reg} (hq : q.val < bs.length) :
    (s.setVFrom 0 bs).getV q = bs[q.val] := by
  rw [State.getV_setVFrom, if_pos (Nat.zero_le _), Nat.sub_zero, List.getD_eq_getElem _ _ hq]

theorem mem_registersWritten_load {x r : Reg} : r ∈ registersWritten (.load x) ↔ r ≤ x := by
  simp [registersWritten]

theorem regsBut_setV (s : State) (x : Reg) (v : Byte) : RegsBut [x] s ((s.setV x v).advance 2) := fun r hr =>
  State.getV_setV_of_ne s x r v (Ne.symm (List.ne_of_not_mem_cons hr))

theorem regsBut_setVFlag (s : State) (x : Reg) (rf : Byte × Byte) :
    RegsBut [x, VF] s ((s.setVFlag x rf).advance 2) := fun r hr => by
  simp only [List.mem_cons, List.not_mem_nil, or_false, not_or] at hr
  rw [State.getV_advance, State.getV_setVFlag, if_neg hr.2, if_neg hr.1]

/-- The first half of R21: no register outside the column "Writes" is written. -/
theorem exec_regsBut {i : Instr} {s t : State} (h : exec i s = .next t) : RegsBut (registersWritten i) s t := by
  by_cases hw : Part.regs ∈ fieldsWritten i
  · cases i with
    | ldImm | addImm | mov | or | and | xor | rnd | ldVxDT =>
      obtain rfl := Host.Outcome.next.inj h
      exact regsBut_setV _ _ _
    | add | sub | shr | subn | shl =>
      obtain rfl := Host.Outcome.next.inj h
      exact regsBut_setVFlag _ _ _
    | drw x y n =>
      obtain ⟨_, d, _, _, rfl⟩ | ⟨r, _, rfl⟩ := drwWith_cases h
      · exact regsBut_setV { s with fb := d.fb } _ _
      · exact fun _ _ => rfl
    | load x =>
      obtain ⟨ms, hr, rfl⟩ | ⟨r, _, rfl⟩ := loadWith_cases h
      · intro r hn
        have hl : ms.length = x.val + 1 := (resolveRange_ok hr).1
        have hx : ¬ r.val ≤ x.val := fun e => hn (mem_registersWritten_load.mpr e)
        rw [State.bumpI_hardware, State.getV_advance, State.getV_setVFrom, if_pos (Nat.zero_le _)]
        exact List.getD_eq_default _ _ (by rw [List.length_map]; omega)
      · exact fun _ _ => rfl
    | ldVxK x =>
      obtain ⟨_, rfl⟩ | ⟨_, _, rfl⟩ := execLdVxK_cases h
      · exact fun _ _ => rfl
      · exact regsBut_setV s x _
    | _ => simp [fieldsWritten] at hw
  · exact fun r _ => State.getV_of_V_eq (exec_keeps_field h hw (.inr (by decide))) r

/-- `s` with other register values. -/
def State.withRegs (W : Vector Byte 16) (s : State) : State := { s with V := W }

/-- The outcome is `t` but for the registers, and at the registers `rs` it is `t` too. -/
def EndsLike (rs : List Reg) (t : State) (o : Result) : Prop :=
  ∃ W, o = .next (t.withRegs W) ∧ ∀ r ∈ rs, (t.withRegs W).getV r = t.getV r

theorem endsLike_of_eq {t : State} {W : Vector Byte 16} {o : Result} (h : o = .next (t.withRegs W)) : EndsLike [] t o :=
  ⟨W, h, nofun⟩

theorem endsLike_setV (s : State) (W : Vector Byte 16) (x : Reg) {v v' : Byte} (h : v' = v) :
    EndsLike [x] ((s.setV x v).advance 2) (.next (((s.withRegs W).setV x v').advance 2)) := by
  subst h
  refine ⟨W.set x v', rfl, fun r hr => ?_⟩
  obtain rfl := List.mem_singleton.mp hr
  exact (State.getV_setV_self (s.withRegs W) r v').trans (State.getV_setV_self s r v').symm

theorem endsLike_setVFlag (s : State) (W : Vector Byte 16) (x : Reg) {rf rf' : Byte × Byte} (h : rf' = rf) :
    EndsLike [x, VF] ((s.setVFlag x rf).advance 2) (.next (((s.withRegs W).setVFlag x rf').advance 2)) := by
  subst h
  refine ⟨(W.set x rf'.1).set VF rf'.2, rfl, fun r hr => ?_⟩
  change ((s.withRegs W).setVFlag x rf').getV r = (s.setVFlag x rf').getV r
  simp only [List.mem_cons, List.not_mem_nil, or_false] at hr
  rcases hr with rfl | rfl <;> simp [State.getV_setVFlag]

theorem endsLike_skipIf (s : State) (W : Vector Byte 16) {b b' : Bool} (h : b' = b) :
    EndsLike [] (s.skipIf b) (.next ((s.withRegs W).skipIf b')) := by
  subst h
  exact endsLike_of_eq rfl

/-- Loading the same bytes into V0..Vx leaves V0..Vx alike. -/
theorem endsLike_setVFrom (s : State) (W : Vector Byte 16) {x : Reg} {bs : List Byte} (h : bs.length = rangeLength x) :
    EndsLike (registersWritten (.load x)) ((s.setVFrom 0 bs).advance 2)
      (.next (((s.withRegs W).setVFrom 0 bs).advance 2)) := by
  refine ⟨((s.withRegs W).setVFrom 0 bs).V, ?_, fun r hr => ?_⟩
  · rw [State.setVFrom_eq bs (s.withRegs W), State.setVFrom_eq bs s]
    rfl
  · have hl : r.val < bs.length := by
      rw [h]
      exact Nat.lt_succ_of_le (mem_registersWritten_load.mp hr)
    exact (State.getV_setVFrom_of_lt (s.withRegs W) hl).trans (State.getV_setVFrom_of_lt s hl).symm

/-- The range V0..Vx is read from V0..Vx alone (R91). -/
theorem State.rangeV_congr {s u : State} {x : Reg} (h : ∀ r ≤ x, u.getV r = s.getV r) : u.rangeV x = s.rangeV x := by
  refine List.ext_getElem (by simp [State.rangeV]) fun k hk _ => ?_
  simp only [State.rangeV, rangeLength, List.length_take, Vector.length_toList] at hk
  simpa [State.rangeV, State.getV] using h ⟨k, by omega⟩ (Fin.mk_le_of_le_val (by omega))

/-- The second half of R21: from registers that agree on the column "Reads" an instruction goes the same way and writes
the same, but that a raise and FX0A with no key write no register. -/
theorem exec_withRegs {i : Instr} {s t : State} {W : Vector Byte 16}
    (hread : ∀ r ∈ registersRead i, (s.withRegs W).getV r = s.getV r) (h : exec i s = .next t) :
    EndsLike (registersWritten i) t (exec i (s.withRegs W)) ∨
    EndsLike [] t (exec i (s.withRegs W)) ∧ (t.status = .halted ∨ s.key = none ∧ ∃ x, i = .ldVxK x) := by
  have raises (op : Option Word) (r : Raised) :
      (s.withRegs W).raise op r = State.withRegs W (s.raise op r) := rfl
  cases i with
  | ret =>
    refine .inl (endsLike_of_eq (State.attempt_commutes _ h raises ?_))
    exact map_checked_dite (fun _ => rfl) fun _ => rfl
  | call nnn =>
    refine .inl (endsLike_of_eq (State.attempt_commutes _ h raises ?_))
    exact map_checked_dite (fun _ => rfl) fun _ => rfl
  | ldB x =>
    have hx := hread x (by simp [registersRead])
    refine .inl (endsLike_of_eq (State.attempt_commutes _ h raises (map_checked fun ms => ?_)))
    rw [hx]; rfl
  | store x =>
    have hx : (s.withRegs W).rangeV x = s.rangeV x :=
      State.rangeV_congr fun r hr => hread r (by simp [registersRead, hr])
    refine .inl (endsLike_of_eq (State.attempt_commutes _ h raises (map_checked fun ms => ?_)))
    rw [hx]; rfl
  | drw x y n =>
    have hx := hread x (by simp [registersRead])
    have hy := hread y (by simp [registersRead])
    obtain ⟨ms, _, hr, rfl, rfl⟩ | ⟨r, hr, rfl⟩ := drwWith_cases h
    · left
      rw [show exec (.drw x y n) (s.withRegs W) = _ from State.attempt_map_ok (s.withRegs W) _ _ hr]
      simp only [hx, hy]
      exact endsLike_setV { s with fb := _ } W VF rfl
    · exact .inr ⟨endsLike_of_eq (State.attempt_map_error (s.withRegs W) _ _ hr), .inl rfl⟩
  | load x =>
    obtain ⟨ms, hr, rfl⟩ | ⟨r, hr, rfl⟩ := loadWith_cases h
    · left
      have hl : (ms.map s.mem.read).length = rangeLength x := (List.length_map _).trans (resolveRange_ok hr).1
      rw [show exec (.load x) (s.withRegs W) = _ from State.attempt_map_ok (s.withRegs W) _ _ hr]
      exact endsLike_setVFrom s W hl
    · exact .inr ⟨endsLike_of_eq (State.attempt_map_error (s.withRegs W) _ _ hr), .inl rfl⟩
  | ldVxK x =>
    obtain ⟨hk, rfl⟩ | ⟨k, hk, rfl⟩ := execLdVxK_cases h
    · exact .inr ⟨endsLike_of_eq (execLdVxK_noKey x hk), .inr ⟨hk, x, rfl⟩⟩
    · left
      rw [show exec (.ldVxK x) (s.withRegs W) = _ from execLdVxK_key x hk]
      exact endsLike_setV { s with status := .running } W x rfl
  | sys | cls | jp | ldI =>
    obtain rfl := Host.Outcome.next.inj h
    exact .inl (endsLike_of_eq rfl)
  | ldImm | rnd | ldVxDT =>
    obtain rfl := Host.Outcome.next.inj h
    exact .inl (endsLike_setV _ W _ rfl)
  | addImm x nn =>
    have hx := hread x (by simp [registersRead])
    obtain rfl := Host.Outcome.next.inj h
    exact .inl (endsLike_setV s W x (by rw [hx]))
  | mov x y =>
    have hy := hread y (by simp [registersRead])
    obtain rfl := Host.Outcome.next.inj h
    exact .inl (endsLike_setV s W x hy)
  | or x y | and x y | xor x y =>
    have hx := hread x (by simp [registersRead])
    have hy := hread y (by simp [registersRead])
    obtain rfl := Host.Outcome.next.inj h
    exact .inl (endsLike_setV s W x (by rw [hx, hy]))
  | add x y | sub x y | subn x y =>
    have hx := hread x (by simp [registersRead])
    have hy := hread y (by simp [registersRead])
    obtain rfl := Host.Outcome.next.inj h
    exact .inl (endsLike_setVFlag s W x (by rw [hx, hy]))
  | shr x y | shl x y =>
    have hx := hread x (by simp [registersRead])
    obtain rfl := Host.Outcome.next.inj h
    exact .inl (endsLike_setVFlag s W x (by rw [hx]))
  | seImm x nn | sneImm x nn =>
    have hx := hread x (by simp [registersRead])
    obtain rfl := Host.Outcome.next.inj h
    exact .inl (endsLike_skipIf s W (by rw [hx]))
  | seReg x y | sneReg x y =>
    have hx := hread x (by simp [registersRead])
    have hy := hread y (by simp [registersRead])
    obtain rfl := Host.Outcome.next.inj h
    exact .inl (endsLike_skipIf s W (by rw [hx, hy]))
  | skp x | sknp x =>
    have hx := hread x (by simp [registersRead])
    obtain rfl := Host.Outcome.next.inj h
    exact .inl (endsLike_skipIf s W (by rw [hx]; rfl))
  | jpV0 nnn =>
    have h0 := hread 0 (by simp [registersRead])
    obtain rfl := Host.Outcome.next.inj h
    refine .inl (endsLike_of_eq (W := W) ?_)
    simp only [exec, execJpV0, h0]; rfl
  | ldDTVx x | ldSTVx x | addI x | ldF x =>
    have hx := hread x (by simp [registersRead])
    obtain rfl := Host.Outcome.next.inj h
    refine .inl (endsLike_of_eq (W := W) ?_)
    simp only [exec, execLdDTVx, execLdSTVx, execAddI, execLdF, ldFWith, hx]; rfl

theorem eq_withRegs_of_sameBut {s u : State} (h : SameBut [.regs] s u) (hfb : u.fb = s.fb) (hmem : u.mem = s.mem) :
    ∃ W, u = s.withRegs W := by
  refine ⟨u.V, ?_⟩
  have same (q : Part) (hq : q ≠ .regs) : SameAt q s u := h q (mt List.mem_singleton.mp hq)
  cases u
  simp only [State.withRegs, State.mk.injEq, true_and]
  exact ⟨same .I nofun, same .pc nofun, same .sp nofun, same .stack nofun, same .DT nofun, same .ST nofun, hmem,
    hfb, same .status nofun, same .err nofun, same .key nofun, same .draws nofun⟩

theorem sameBut_withRegs (t : State) (W : Vector Byte 16) : SameBut [.regs] t (t.withRegs W) := by
  intro q hq
  cases q with
  | regs => exact absurd (List.mem_singleton.mpr rfl) hq
  | mem => exact fun _ => rfl
  | fb => exact fun _ _ => rfl
  | _ => rfl

/-- Settles O22: two states as in the statement are one state with two values of V, which the instruction reads alike. -/
theorem registerAccessIsAsListed : Obligations.RegisterAccessIsAsListed := by
  refine ⟨fun i s t h => exec_regsBut h, fun i s u t t' _ hsu hfb hmem hread h h' => ?_⟩
  obtain ⟨W, rfl⟩ := eq_withRegs_of_sameBut hsu hfb hmem
  obtain ⟨W', e, hsame⟩ | ⟨⟨W', e, _⟩, hnone⟩ := exec_withRegs hread h
  · obtain rfl := Host.Outcome.next.inj (e.symm.trans h')
    exact ⟨sameBut_withRegs t W', fun _ r hr => .inr (hsame r hr)⟩
  · obtain rfl := Host.Outcome.next.inj (e.symm.trans h')
    refine ⟨sameBut_withRegs t W', fun ht r hr => .inl ?_⟩
    obtain hh | ⟨hk, x, rfl⟩ := hnone
    · exact absurd hh ht
    · obtain rfl := List.mem_singleton.mp hr
      exact ⟨rfl, hk⟩

end Sys2Proof.Machine
end

section
/-! PROOFS of the memory statements (spec/20_memory.md): the fetch as a pair of bytes (R37, R38), what a block store
leaves for it (R47, R91), and the errors the two address policies shut out (R43, R44). -/

namespace Sys2Proof.Machine

/-! ### The fetch under either policy (R37, R38, R43) -/

theorem toNat_opcodeOfBytes (hi lo : Byte) : (opcodeOfBytes hi lo).toNat = hi.toNat * 256 + lo.toNat := by
  rw [opcodeOfBytes, BitVec.toNat_append, ← Nat.shiftLeft_add_eq_or_of_lt lo.isLt, Nat.shiftLeft_eq]

theorem fetch_mask {p : Params} (hp : p.addrPolicy = .mask) (s : State) :
    fetch p s = .ok (opcodeOfBytes (s.mem.read (s.pc.toNat % 4096)) (s.mem.read ((s.pc.toNat + 1) % 4096))) := by
  simp only [fetch, resolve_mask hp]

/-- The one error of a fetch: it leaves memory, under `fault`. -/
theorem fetch_error {p : Params} {s : State} {r : Raised} (h : fetch p s = .error r) :
    p.addrPolicy = .fault ∧ 0xFFE < s.pc.toNat ∧ r = ⟨.addressOutOfRange, some (max s.pc.toNat 0x1000)⟩ := by
  by_cases hpc : s.pc.toNat ≤ 0xFFE
  · rw [fetch_inRange p hpc] at h
    cases h
  · cases hp : p.addrPolicy with
    | mask =>
      rw [fetch_mask hp] at h
      cases h
    | fault =>
      rw [fetch_outOfRange hp (by omega)] at h
      exact ⟨rfl, by omega, (Except.error.inj h).symm⟩

/-- Settles O5: the bytes fetched are those at the resolved addresses of pc and pc + 1, high byte first. -/
theorem fetchReadsTheBigEndianPair : Obligations.FetchReadsTheBigEndianPair := by
  intro p s
  refine ⟨fun hpc => ⟨_, fetch_inRange p hpc, toNat_opcodeOfBytes _ _⟩, fun hp hpc => ?_, fun hp hpc => ?_,
    fun hp => ⟨_, fetch_mask hp s, toNat_opcodeOfBytes _ _⟩⟩
  · rw [fetch_outOfRange hp (by omega), hpc]
    rfl
  · rw [fetch_outOfRange hp (by omega), Nat.max_eq_left hpc]

/-! ### A block store and the fetch after it (R40, R47, R91) -/

@[simp] theorem State.length_rangeV (s : State) (x : Reg) : (s.rangeV x).length = rangeLength x := by
  simp only [State.rangeV, rangeLength, List.length_take, Vector.length_toList]
  omega

/-- The k-th byte of the register range is Vk. -/
theorem State.getD_rangeV (s : State) {x : Reg} {k : Nat} (hk : k ≤ x.val) (d : Byte) :
    (s.rangeV x).getD k d = s.getV ⟨k, by omega⟩ := by
  rw [List.getD_eq_getElem _ _ (by rw [State.length_rangeV, rangeLength]; omega)]
  simp only [State.rangeV, State.getV, List.getElem_take, Vector.getElem_toList, Fin.getElem_fin]

/-- FX55 that does not raise has its whole block inside memory, and writes the register range there (R86, R91). -/
theorem execStore_completes {x : Reg} {s t : State} (h : exec (.store x) s = .next t) (ht : t.status ≠ .halted) :
    s.I.toNat + rangeLength x ≤ Config.memSize ∧ t.mem = s.mem.writeFrom s.I.toNat (s.rangeV x) := by
  obtain ⟨ms, hw, rfl⟩ | ⟨r, _, rfl⟩ := storeWith_cases h
  · obtain rfl := resolveRange_fault_ok rfl (resolveRange_of_writeTargets hw)
    have hlast : s.I.toNat + x.val ∈ List.range' s.I.toNat (rangeLength x) :=
      List.mem_range'_1.mpr ⟨by omega, by rw [rangeLength]; omega⟩
    obtain ⟨_, _, hsize⟩ := mem_writeTargets_hardware hw hlast
    exact ⟨hsize, by rw [Memory.writeFrom, State.length_rangeV]; rfl⟩
  · exact absurd rfl ht

/-- After FX55 the byte at I + k is Vk. -/
theorem read_execStore {x : Reg} {s t : State} (hm : s.mem.wf) (h : exec (.store x) s = .next t)
    (ht : t.status ≠ .halted) {k : Nat} (hk : k ≤ x.val) :
    t.mem.read (s.I.toNat + k) = s.getV ⟨k, by omega⟩ := by
  obtain ⟨hsize, hmem⟩ := execStore_completes h ht
  rw [hmem, Memory.read_writeFrom _ _ _ hm (by rwa [State.length_rangeV]), if_pos (by omega), Nat.add_sub_cancel_left,
    State.getD_rangeV s hk]

/-- Settles O26: the pair at pc lies in the block, which holds the registers, and the block lies inside memory. -/
theorem storeIsSeenByTheNextFetch : Obligations.StoreIsSeenByTheNextFetch := by
  intro x s t k hm _ h hrun hk hpc
  have ht : t.status ≠ .halted := by rw [hrun]; nofun
  obtain ⟨hsize, _⟩ := execStore_completes h ht
  simp only [rangeLength, Config.memSize] at hsize
  rw [fetch_inRange _ (by omega), hpc, Nat.add_assoc, read_execStore hm h ht (by omega), read_execStore hm h ht hk]

/-! ### Which error each instruction raises, and under which policies (R43, R44, R102) -/

/-- The checks an instruction makes before it writes, each with the error of its failing (R63, R65, R90 to R92, R94). -/
inductive Fails (p : Params) (s : State) : Instr → Raised → Prop where
  | underflow : s.sp.val = 0 → Fails p s .ret ⟨.stackUnderflow, none⟩
  | overflow {nnn} : p.stackDepth.val ≤ s.sp.val → Fails p s (.call nnn) ⟨.stackOverflow, none⟩
  | sprite {x y n r} : readTargets p s.I.toNat n.val = .error r → Fails p s (.drw x y n) r
  | digits {x r} : writeTargets p s.I.toNat 3 = .error r → Fails p s (.ldB x) r
  | blockStore {x r} : writeTargets p s.I.toNat (rangeLength x) = .error r → Fails p s (.store x) r
  | blockLoad {x r} : readTargets p s.I.toNat (rangeLength x) = .error r → Fails p s (.load x) r

/-- An execution that leaves a running engine halted raised the error of one of its checks. -/
theorem execWith_halted {p : Params} {rnd : Byte} {i : Instr} {s t : State} (hs : s.status ≠ .halted)
    (h : execWith p rnd i s = .next t) (ht : t.status = .halted) :
    ∃ r, Fails p s i r ∧ t = s.raise (some (encode i)) r := by
  cases i with
  | ret =>
    obtain ⟨_, rfl⟩ | ⟨hsp, rfl⟩ := execRet_cases h
    · exact absurd ht hs
    · exact ⟨_, .underflow hsp, rfl⟩
  | call nnn =>
    obtain ⟨_, rfl⟩ | ⟨hsp, rfl⟩ := callWith_cases h
    · exact absurd ht hs
    · exact ⟨_, .overflow hsp, rfl⟩
  | drw x y n =>
    obtain ⟨_, _, _, _, rfl⟩ | ⟨r, hr, rfl⟩ := drwWith_cases h
    · exact absurd ht hs
    · exact ⟨r, .sprite hr, rfl⟩
  | ldB x =>
    obtain ⟨_, _, rfl⟩ | ⟨r, hr, rfl⟩ := ldBWith_cases h
    · exact absurd ht hs
    · exact ⟨r, .digits hr, rfl⟩
  | store x =>
    obtain ⟨_, _, rfl⟩ | ⟨r, hr, rfl⟩ := storeWith_cases h
    · rw [State.bumpI_eq] at ht
      exact absurd ht hs
    · exact ⟨r, .blockStore hr, rfl⟩
  | load x =>
    obtain ⟨_, _, rfl⟩ | ⟨r, hr, rfl⟩ := loadWith_cases h
    · rw [State.bumpI_eq, State.setVFrom_eq] at ht
      exact absurd ht hs
    · exact ⟨r, .blockLoad hr, rfl⟩
  | ldVxK x => exact absurd ht ((execLdVxK_completes h).not_halted hs)
  | _ =>
    obtain rfl := Host.Outcome.next.inj h
    exact absurd ht hs

/-- The policies leave a cause possible: `mask` shuts out AddressOutOfRange, `allow` ProtectedWrite (R43, R44). -/
def Permits (p : Params) (cause : Fault) : Prop :=
  (p.addrPolicy = .mask → cause ≠ .addressOutOfRange) ∧ (p.lowWritePolicy = .allow → cause ≠ .protectedWrite)

theorem permits_addressOutOfRange {p : Params} (hp : p.addrPolicy = .fault) : Permits p .addressOutOfRange :=
  ⟨fun hm => absurd (hp.symm.trans hm) nofun, fun _ => nofun⟩

theorem permits_protectedWrite {p : Params} (hp : p.lowWritePolicy = .fault) : Permits p .protectedWrite :=
  ⟨fun _ => nofun, fun ha => absurd (hp.symm.trans ha) nofun⟩

theorem permits_of_readTargets_error {p : Params} {base n : Nat} {r : Raised}
    (h : readTargets p base n = .error r) : Permits p r.cause := by
  obtain ⟨hp, _, _, rfl⟩ := resolveRange_error h
  exact permits_addressOutOfRange hp

theorem permits_of_writeTargets_error {p : Params} {base n : Nat} {r : Raised}
    (h : writeTargets p base n = .error r) : Permits p r.cause := by
  obtain ⟨hp, _, rfl⟩ | ⟨hp, m, _, rfl⟩ := writeTargets_error h
  · exact permits_addressOutOfRange hp
  · exact permits_protectedWrite hp

theorem Fails.permits {p : Params} {s : State} {i : Instr} {r : Raised} (h : Fails p s i r) : Permits p r.cause := by
  cases h with
  | underflow _ => exact ⟨fun _ => by decide, fun _ => by decide⟩
  | overflow _ => exact ⟨fun _ => by decide, fun _ => by decide⟩
  | sprite h => exact permits_of_readTargets_error h
  | digits h => exact permits_of_writeTargets_error h
  | blockStore h => exact permits_of_writeTargets_error h
  | blockLoad h => exact permits_of_readTargets_error h

/-- A Step that halts a running engine raised an error that the policies leave possible. -/
theorem stepWith_halted {p : Params} {rnd : Byte} {s t : State} (hs : s.status ≠ .halted)
    (h : stepWith p rnd s = .next t) (ht : t.status = .halted) : ∃ op r, Permits p r.cause ∧ t = s.raise op r := by
  obtain ⟨hh, _⟩ | ⟨_, r, hf, rfl⟩ | ⟨_, op, _, _, _, rfl⟩ | ⟨_, _, i, u, _, _, hx, rfl⟩ := runStep_cases h
  · exact absurd hh hs
  · obtain ⟨hp, _, rfl⟩ := fetch_error hf
    exact ⟨none, _, permits_addressOutOfRange hp, rfl⟩
  · exact ⟨some op, _, ⟨fun _ => by decide, fun _ => by decide⟩, rfl⟩
  · obtain ⟨e, hu⟩ := settle_of_halted ht
    obtain ⟨r, hr, rfl⟩ := execWith_halted hs hx hu
    exact ⟨_, r, hr.permits, e⟩

/-- Settles O27: the record of a Step that halts is that of the error it raised. -/
theorem policiesDecideTheAddressErrors : Obligations.PoliciesDecideTheAddressErrors := by
  intro p rnd s t e hs h ht he
  obtain ⟨op, r, hp, rfl⟩ := stepWith_halted hs h ht
  obtain rfl := Option.some.inj he
  exact hp

end Sys2Proof.Machine
end

section
/-! PROOFS of the encoding statements (spec/30_encoding.md): the fields of an opcode as numbers (R50 to R52), when a
word is an encoding of each format (R51, R53), what the decoder answers for every opcode beside the encoder and the
table of undefined opcodes (R54, R55), and decoding after encoding (R49, R53). -/

namespace Sys2Proof.Machine

/-! ### The fields of an opcode (R50, R52) -/

section Fields

variable (op : Word)

@[simp] theorem toNat_opClass : (opClass op).toNat = op.toNat / 4096 := by
  simp [opClass, Nat.shiftRight_eq_div_pow]; omega

@[simp] theorem val_opX : (opX op).val = op.toNat / 256 % 16 := by simp [opX, Nat.shiftRight_eq_div_pow]

@[simp] theorem val_opY : (opY op).val = op.toNat / 16 % 16 := by simp [opY, Nat.shiftRight_eq_div_pow]

@[simp] theorem toNat_opSel : (opSel op).toNat = op.toNat % 16 := by simp [opSel]

@[simp] theorem val_opN : (opN op).val = op.toNat % 16 := toNat_opSel op

@[simp] theorem toNat_opNN : (opNN op).toNat = op.toNat % 256 := by simp [opNN]

@[simp] theorem toNat_opNNN : (opNNN op).toNat = op.toNat % 4096 := by simp [opNNN]

/-- The two bytes of an opcode give it back (R37). -/
theorem opcodeOfBytes_extractLsb' : opcodeOfBytes (op.extractLsb' 8 8) (op.extractLsb' 0 8) = op :=
  BitVec.extractLsb'_append_extractLsb' (w := 8) (len := 8)

end Fields

/-! ### A word is an encoding of a format exactly when its fields are those of the format (R51, R53)

`k` is the match value of a row of the opcode map: the class nibble and, where the format has one, the sub-selector. -/

section Formats

variable {op : Word} {k : Nat} {x y : Reg}

theorem ofNat_addr_iff {nnn : Addr12} (hk : k % 4096 = 0) :
    BitVec.ofNat 16 (k + nnn.toNat) = op ↔ opClass op = BitVec.ofNat 4 (k / 4096) ∧ opNNN op = nnn := by
  simp [← BitVec.toNat_inj]; omega

theorem ofNat_imm_iff {nn : Byte} (hk : k % 4096 = 0) :
    BitVec.ofNat 16 (k + x.val * 0x100 + nn.toNat) = op ↔
      opClass op = BitVec.ofNat 4 (k / 4096) ∧ opX op = x ∧ opNN op = nn := by
  simp [← BitVec.toNat_inj, Fin.ext_iff]; omega

theorem ofNat_sprite_iff {n : Count} (hk : k % 4096 = 0) :
    BitVec.ofNat 16 (k + x.val * 0x100 + y.val * 0x10 + n.val) = op ↔
      opClass op = BitVec.ofNat 4 (k / 4096) ∧ opX op = x ∧ opY op = y ∧ opN op = n := by
  simp [← BitVec.toNat_inj, Fin.ext_iff]; omega

theorem ofNat_regReg_iff (hk : k % 4096 < 16) :
    BitVec.ofNat 16 (k + x.val * 0x100 + y.val * 0x10) = op ↔
      opClass op = BitVec.ofNat 4 (k / 4096) ∧ opX op = x ∧ opY op = y ∧ opSel op = BitVec.ofNat 4 k := by
  simp [← BitVec.toNat_inj, Fin.ext_iff]; omega

theorem ofNat_reg_iff (hk : k % 4096 < 256) :
    BitVec.ofNat 16 (k + x.val * 0x100) = op ↔
      opClass op = BitVec.ofNat 4 (k / 4096) ∧ opX op = x ∧ opNN op = BitVec.ofNat 8 k := by
  simp [← BitVec.toNat_inj, Fin.ext_iff]; omega

end Formats

/-! ### What a decoder answers (R54, R55) -/

/-- What a decoder answers for `op`, `undefined` saying whether it is Undefined: a well-formed instruction that `op`
encodes, or the error that carries `op`. -/
inductive Reading (op : Word) (undefined : Prop) : Except DecodeError Instr → Prop where
  | instr {i : Instr} (wf : i.wellFormed = true) (enc : encode i = op) (defined : ¬ undefined) :
      Reading op undefined (.ok i)
  | error (h : undefined) : Reading op undefined (.error (.undefined op))

section Reading

variable {op : Word} {undefined : Prop}

theorem Reading.ok {i : Instr} (h : Reading op undefined (.ok i)) : i.wellFormed = true ∧ encode i = op := by
  cases h with
  | instr wf enc _ => exact ⟨wf, enc⟩

theorem Reading.error_iff {r : Except DecodeError Instr} (h : Reading op undefined r) :
    r = .error (.undefined op) ↔ undefined := by
  cases h with
  | instr _ _ hn => simp [hn]
  | error hu => simp [hu]

theorem Reading.eq_undefined {e : DecodeError} (h : Reading op undefined (.error e)) : e = .undefined op := by
  cases h; rfl

end Reading

section Classes

variable {op : Word}

theorem decodeClass0_reading (policy : SysPolicy) (hc : opClass op = 0) :
    Reading op (policy = .fault ∧ op.toNat ≠ 0x00E0 ∧ op.toNat ≠ 0x00EE) (decodeClass0 policy op) := by
  have hop {w : Word} (h : op ≠ w) : op.toNat ≠ w.toNat := mt BitVec.eq_of_toNat_eq h
  unfold decodeClass0
  split
  case isTrue h => exact .instr rfl h.symm (by simp [h])
  split
  case isTrue h => exact .instr rfl h.symm (by simp [h])
  case isFalse hcls hret =>
    cases policy with
    | nop =>
      have enc : encode (.sys (opNNN op)) = op := (ofNat_addr_iff rfl).mpr ⟨hc, rfl⟩
      have wf {w : Addr12} (h : op ≠ encode (.sys w)) : opNNN op ≠ w := fun e => h (e ▸ enc.symm)
      exact .instr (by simpa [Instr.wellFormed] using ⟨wf hcls, wf hret⟩) enc nofun
    | fault => exact .error ⟨rfl, hop hcls, hop hret⟩

/-- Classes 5 and 9, defined for the low nibble 0 alone. -/
theorem ite_opSel_reading {i : Instr} (wf : i.wellFormed = true) (enc : opSel op = 0 → encode i = op) :
    Reading op (op.toNat % 16 ≠ 0) (if opSel op = 0 then .ok i else .error (.undefined op)) := by
  have hsel : opSel op = 0 ↔ op.toNat % 16 = 0 := by simp [← BitVec.toNat_inj]
  split
  case isTrue h => exact .instr wf (enc h) (not_not.mpr (hsel.mp h))
  case isFalse h => exact .error (mt hsel.mpr h)

theorem decodeClass8_reading (hc : opClass op = 8) :
    Reading op (op.toNat % 16 ∈ [0x8, 0x9, 0xA, 0xB, 0xC, 0xD, 0xF]) (decodeClass8 op) := by
  unfold decodeClass8
  split
  case h_10 => exact .error (by simp_all [← BitVec.toNat_inj]; omega)
  all_goals
    have hsel := ‹opSel op = _›
    exact .instr rfl ((ofNat_regReg_iff (by decide)).mpr ⟨hc, rfl, rfl, hsel⟩) (by rw [← toNat_opSel, hsel]; decide)

theorem decodeClassE_reading (hc : opClass op = 14) :
    Reading op (op.toNat % 256 ∉ [0x9E, 0xA1]) (decodeClassE op) := by
  unfold decodeClassE
  split
  case h_3 => exact .error (by simp_all [← BitVec.toNat_inj])
  all_goals
    have hsel := ‹opNN op = _›
    exact .instr rfl ((ofNat_reg_iff (by decide)).mpr ⟨hc, rfl, hsel⟩) (by rw [← toNat_opNN, hsel]; decide)

theorem decodeClassF_reading (hc : opClass op = 15) :
    Reading op (op.toNat % 256 ∉ [0x07, 0x0A, 0x15, 0x18, 0x1E, 0x29, 0x33, 0x55, 0x65]) (decodeClassF op) := by
  unfold decodeClassF
  split
  case h_10 => exact .error (by simp_all [← BitVec.toNat_inj])
  all_goals
    have hsel := ‹opNN op = _›
    exact .instr rfl ((ofNat_reg_iff (by decide)).mpr ⟨hc, rfl, hsel⟩) (by rw [← toNat_opNN, hsel]; decide)

end Classes

/-- The opcodes of the table of R55 that are Undefined under either `SYS_POLICY`. -/
def IllegalOpcode (w : Nat) : Prop :=
  (w / 4096 = 5 ∧ w % 16 ≠ 0) ∨ (w / 4096 = 8 ∧ w % 16 ∈ [0x8, 0x9, 0xA, 0xB, 0xC, 0xD, 0xF]) ∨
  (w / 4096 = 9 ∧ w % 16 ≠ 0) ∨ (w / 4096 = 14 ∧ w % 256 ∉ [0x9E, 0xA1]) ∨
  (w / 4096 = 15 ∧ w % 256 ∉ [0x07, 0x0A, 0x15, 0x18, 0x1E, 0x29, 0x33, 0x55, 0x65])

/-- The opcodes of the table of R55: `fault` adds the 0NNN pattern. -/
def UndefinedOpcode (policy : SysPolicy) (w : Nat) : Prop :=
  IllegalOpcode w ∨ (w / 4096 = 0 ∧ policy = .fault ∧ w ≠ 0x00E0 ∧ w ≠ 0x00EE)

/-- The decoder answers by the class: the rows of the table of R55 for the other classes fall away. -/
theorem decodeWith_reading (policy : SysPolicy) (op : Word) :
    Reading op (UndefinedOpcode policy op.toNat) (decodeWith policy op) := by
  unfold decodeWith
  split
  case h_17 => simp_all [← BitVec.toNat_inj]; omega
  all_goals
    have hc := ‹opClass op = _›
    have hw : op.toNat / 4096 = _ := (toNat_opClass op).symm.trans (congrArg BitVec.toNat hc)
    simp only [UndefinedOpcode, IllegalOpcode, hw, BitVec.toNat_ofNat, Nat.reducePow, Nat.reduceMod, Nat.reduceEqDiff,
      false_and, true_and, false_or, or_false]
  case h_1 => exact decodeClass0_reading policy hc
  case h_2 | h_3 | h_11 | h_12 => exact .instr rfl ((ofNat_addr_iff rfl).mpr ⟨hc, rfl⟩) nofun
  case h_4 | h_5 | h_7 | h_8 | h_13 => exact .instr rfl ((ofNat_imm_iff rfl).mpr ⟨hc, rfl, rfl⟩) nofun
  case h_6 | h_10 =>
    exact ite_opSel_reading rfl fun hsel => (ofNat_regReg_iff (by decide)).mpr ⟨hc, rfl, rfl, hsel⟩
  case h_9 => exact decodeClass8_reading hc
  case h_14 => exact .instr rfl ((ofNat_sprite_iff rfl).mpr ⟨hc, rfl, rfl, rfl⟩) nofun
  case h_15 => exact decodeClassE_reading hc
  case h_16 => exact decodeClassF_reading hc

theorem decode_reading (op : Word) : Reading op (IllegalOpcode op.toNat) (decode op) := by
  have h : Reading op _ (decode op) := decodeWith_reading .nop op
  simpa [UndefinedOpcode] using h

theorem decodeWith_fault_error_iff (op : Word) :
    decodeWith .fault op = .error (.undefined op) ↔
      IllegalOpcode op.toNat ∨ (op.toNat / 4096 = 0 ∧ op.toNat ≠ 0x00E0 ∧ op.toNat ≠ 0x00EE) := by
  simpa only [UndefinedOpcode, true_and] using (decodeWith_reading .fault op).error_iff

/-- Settles O2: what the decoder reads encodes back. -/
theorem encodeOfDecodeIsTheOpcode : Obligations.EncodeOfDecodeIsTheOpcode :=
  fun op _ h => (h ▸ decode_reading op).ok

/-- Settles O3: the decoder answers the error exactly on the table, and no other error. -/
theorem undefinedOpcodesAreThoseOfTheTable : Obligations.UndefinedOpcodesAreThoseOfTheTable :=
  fun op => ⟨(decode_reading op).error_iff, decodeWith_fault_error_iff op,
    fun _ h => (h ▸ decode_reading op).eq_undefined⟩

/-! ### Decoding after encoding (R49, R53, R54) -/

theorem decodeClass0_sys {op : Word} {nnn : Addr12} (h : (Instr.sys nnn).wellFormed = true) (hn : opNNN op = nnn) :
    decodeClass0 .nop op = .ok (.sys nnn) := by
  subst hn
  obtain ⟨hcls, hret⟩ : opNNN op ≠ 0x0E0 ∧ opNNN op ≠ 0x0EE := by simpa [Instr.wellFormed] using h
  rw [decodeClass0, if_neg (by rintro rfl; exact hcls rfl), if_neg (by rintro rfl; exact hret rfl)]

/-- The encoding of an instruction has the fields of its format; by these the decoder finds the row and its operands. -/
theorem decode_encode {i : Instr} (h : i.wellFormed = true) : decode (encode i) = .ok i := by
  generalize e : encode i = op
  change decodeWith .nop op = _
  cases i with
  | sys nnn =>
    obtain ⟨hc, hn⟩ := (ofNat_addr_iff rfl).mp e
    simpa [decodeWith, hc] using decodeClass0_sys h hn
  | cls | ret => subst e; rfl
  | jp nnn | call nnn | ldI nnn | jpV0 nnn =>
    obtain ⟨hc, hn⟩ := (ofNat_addr_iff rfl).mp e
    simp [decodeWith, hc, hn]
  | seImm x nn | sneImm x nn | ldImm x nn | addImm x nn | rnd x nn =>
    obtain ⟨hc, hx, hn⟩ := (ofNat_imm_iff rfl).mp e
    simp [decodeWith, hc, hx, hn]
  | seReg x y | sneReg x y | mov x y | or x y | and x y | xor x y | add x y | sub x y | shr x y | subn x y
  | shl x y =>
    obtain ⟨hc, hx, hy, hsel⟩ := (ofNat_regReg_iff (by decide)).mp e
    simp [decodeWith, decodeClass8, hc, hx, hy, hsel]
  | drw x y n =>
    obtain ⟨hc, hx, hy, hn⟩ := (ofNat_sprite_iff rfl).mp e
    simp [decodeWith, hc, hx, hy, hn]
  | skp x | sknp x | ldVxDT x | ldVxK x | ldDTVx x | ldSTVx x | addI x | ldF x | ldB x | store x | load x =>
    obtain ⟨hc, hx, hsel⟩ := (ofNat_reg_iff (by decide)).mp e
    simp [decodeWith, decodeClassE, decodeClassF, hc, hx, hsel]

theorem decodeBytes_encodeBytes_append {i : Instr} (h : i.wellFormed = true) (rest : List Byte) :
    decodeBytes (encodeBytes i ++ rest) = .ok (i, rest) := by
  change (decode (opcodeOfBytes _ _)).map (·, rest) = _
  rw [opcodeOfBytes_extractLsb', decode_encode h]
  rfl

/-- Settles O1: decoding the encoding, as a word and as two bytes in memory order. -/
theorem decodeOfEncodeIsTheInstruction : Obligations.DecodeOfEncodeIsTheInstruction :=
  fun _ h => ⟨decode_encode h, decodeBytes_encodeBytes_append h⟩

/-- Settles O4: ten opcodes, decoded by evaluation. -/
theorem sampleOpcodesDecodeAsTheMapSays : Obligations.SampleOpcodesDecodeAsTheMapSays := by
  unfold Obligations.SampleOpcodesDecodeAsTheMapSays
  decide

end Sys2Proof.Machine
end

section
/-! PROOFS of the control-flow statements (spec/40_control_flow.md): every execution and every Step answers a next state
(R57), what leaves Halted (R60) and ends a wait (R61), the pc after every instruction (R59), and the jumps, skips, calls
and returns (R62 to R70). -/

namespace Sys2Proof.Machine

/-! ### Frames as values -/

theorem SameField.sameAt {q : Part} {s t : State} (h : SameField q s t) : SameAt q s t := by
  cases q with
  | regs => exact State.getV_of_V_eq h
  | mem => exact fun a => congrArg (Memory.read · a) h
  | fb => exact fun px py => congrArg (Framebuffer.pixel · px py) h
  | _ => exact h

theorem sameBut_of_overwritten {fields : List Part} {s t : State} (h : t = s.overwritten fields t) :
    SameBut fields s t := fun _ hq => (sameField_of_overwritten h hq).sameAt

/-- A raise is the fatal error of R15. -/
theorem haltsWith_raise (s : State) (op : Option Word) (r : Raised) : HaltsWith r.cause op r.addr s (s.raise op r) :=
  ⟨rfl, rfl, sameBut_of_overwritten rfl⟩

/-! ### Every execution and every Step answers a next state (R57) -/

theorem State.attempt_answers (s : State) (i : Instr) (c : Except Raised State) : ∃ t, s.attempt i c = .next t := by
  cases c with
  | ok t => exact ⟨t, rfl⟩
  | error r => exact ⟨_, rfl⟩

theorem execWith_answers (p : Params) (rnd : Byte) (i : Instr) (s : State) : ∃ t, execWith p rnd i s = .next t := by
  cases i with
  | ret | call | drw | ldB | store | load => exact State.attempt_answers s _ _
  | _ => exact ⟨_, rfl⟩

theorem exec_answers (i : Instr) (s : State) : ∃ t, exec i s = .next t := by
  have h := execWith_answers Params.hardware 0 i s
  cases i with
  | rnd x nn => exact ⟨_, rfl⟩
  | _ => exact h

/-- A Step answers where every execution does: a failing fetch or decoding is a raise. -/
theorem runStep_answers (p : Params) {f : Instr → State → Result} (hf : ∀ i s, ∃ t, f i s = .next t)
    (s : State) : ∃ t, runStep p f s = .next t := by
  by_cases hs : s.status = .halted
  · exact ⟨s, runStep_halted p f hs⟩
  cases hop : fetch p s with
  | error r => exact ⟨_, runStep_fetch_error f hs hop⟩
  | ok op =>
    cases hi : decodeWith p.sysPolicy op with
    | error e => exact ⟨_, runStep_decode_error f hs hop hi⟩
    | ok i =>
      obtain ⟨t, ht⟩ := hf i s
      exact ⟨_, runStep_execute hs hop hi ht⟩

/-- Settles O9: a check that fails is a raise, which is a next state, and nothing else stops an execution or a Step. -/
theorem everyInstructionAndStepAnswersANextState : Obligations.EveryInstructionAndStepAnswersANextState :=
  ⟨exec_answers, runStep_answers _ exec_answers, fun p rnd => runStep_answers p (execWith_answers p rnd)⟩

/-! ### What leaves Halted (R60, R104) -/

theorem setKey_writes_key {k : Option Nat} {s t : State} (h : setKey k s = .next t) : t = { s with key := t.key } := by
  unfold setKey at h
  split at h
  · obtain rfl := Host.Outcome.next.inj h
    rfl
  · split at h
    · obtain rfl := Host.Outcome.next.inj h
      rfl
    · cases h

theorem State.ticked_halted {s : State} (hs : s.status = .halted) : s.ticked = s := if_pos hs

/-- From a halted state every transaction but Reset leaves all but the key latch as it is. -/
theorem transact_halted {p : Params} {tr : Transaction} {s t : State} (hs : s.status = .halted)
    (h : transact p tr s = .next t) : (∃ rom, tr = .reset rom) ∨ t = { s with key := t.key } := by
  cases tr with
  | reset rom => exact .inl ⟨rom, rfl⟩
  | setKey k => exact .inr (setKey_writes_key h)
  | step rnd =>
    obtain rfl := Host.Outcome.next.inj ((runStep_halted p _ hs).symm.trans h)
    exact .inr rfl
  | tick =>
    obtain rfl := Host.Outcome.next.inj h
    exact .inr (by rw [State.ticked_halted hs])
  | pixel px py =>
    simp only [transact] at h
    split at h
    · obtain rfl := Host.Outcome.next.inj h
      exact .inr rfl
    · cases h
  | soundActive | readState =>
    obtain rfl := Host.Outcome.next.inj h
    exact .inr rfl

/-- Settles O8: a Step answers the halted state itself, and the other transactions, Reset aside, keep the status. -/
theorem haltedEngineLeavesOnlyByReset : Obligations.HaltedEngineLeavesOnlyByReset := by
  intro p s hs
  refine ⟨runStep_halted _ _ hs, fun rnd => ⟨runStep_halted p _ hs, congrArg (Answer.status · s.err) hs⟩,
    fun tr t h ht => ?_⟩
  obtain hreset | e := transact_halted hs h
  · exact hreset
  · exact absurd ((congrArg State.status e).trans hs) ht

/-! ### The status after the execution (R57, R61) -/

theorem settle_waitForKey (x : Reg) (t : State) : settle (.ldVxK x) t = t := if_pos (.inl rfl)

theorem settle_running {i : Instr} {t : State} (ht : t.status ≠ .halted) (hi : ∀ x, i ≠ .ldVxK x) :
    settle i t = { t with status := .running } := by
  refine if_neg (not_or.mpr ⟨fun hw => ?_, ht⟩)
  obtain ⟨x, hx⟩ := isWaitForKey_iff.mp hw
  exact hi x hx

/-- Settles O6: the Step executes what it fetched and decoded, and then settles the status. -/
theorem stepRunsTheDecodedInstruction : Obligations.StepRunsTheDecodedInstruction := by
  intro s i hs hpc hd
  obtain ⟨t, ht⟩ := exec_answers i s
  have hstep : step s = .next (settle i t) := runStep_execute hs (fetch_inRange _ hpc) hd ht
  refine ⟨t, ht, ?_, fun ⟨hn, hi⟩ => by rw [hstep, settle_running hn hi]⟩
  rintro (hh | ⟨x, rfl⟩)
  · rw [hstep, settle_halted i hh]
  · rw [hstep, settle_waitForKey]

/-- Settles O7: both errors are raises, the one with no opcode, the other with the opcode fetched. -/
theorem stepHaltsOnFetchAndDecodeErrors : Obligations.StepHaltsOnFetchAndDecodeErrors := by
  intro s hs
  refine ⟨fun hpc => ⟨_, runStep_fetch_error _ hs (fetch_outOfRange rfl hpc), haltsWith_raise _ _ _⟩, ?_⟩
  rintro hpc op e rfl hd
  exact ⟨_, runStep_decode_error _ hs (fetch_inRange _ hpc) hd, haltsWith_raise _ _ _⟩

/-- FX0A with a key in the latch completes and the engine runs on (R61, R98). -/
theorem step_takesKey {s : State} {op : Word} {x : Reg} {k : Key} (hs : s.status ≠ .halted) (hk : s.key = some k)
    (hf : fetch Params.hardware s = .ok op) (hd : decode op = .ok (.ldVxK x)) :
    step s = .next ({ s.setV x (BitVec.ofNat 8 k.val) with status := .running }.advance 2) :=
  runStep_execute hs hf hd (execLdVxK_key x hk)

/-- Settles O13: a waiting engine is at an FX0A, which waits on with no key and takes the key that is there. -/
theorem waitingEngineIsRecallable : Obligations.WaitingEngineIsRecallable := by
  intro s hw hwait
  obtain ⟨op, x, hf, hd⟩ := hw hwait
  have hs : s.status ≠ .halted := by rw [hwait]; nofun
  refine ⟨fun hk => ?_, fun k hk => ⟨op, x, _, hf, hd, step_takesKey hs hk hf hd, ?_, rfl, rfl, regsBut_setV s x _,
    sameBut_of_overwritten rfl⟩⟩
  · rw [step_waitForKey hs hk hf hd, ← hwait]
  · exact (congrArg BitVec.toNat (State.getV_setV_self s x _)).trans (Nat.mod_eq_of_lt (by omega))

/-! ### Where the jumps and the skips go (R64, R66 to R70) -/

theorem toNat_zext16 (nnn : Addr12) : (zext16 nnn).toNat = nnn.toNat := BitVec.toNat_setWidth_of_le (by decide)

/-- The sum of BNNN fits in 16 bits (R70). -/
theorem toNat_jumpV0 (nnn : Addr12) (v : Byte) : (BitVec.ofNat 16 (nnn.toNat + v.toNat)).toNat = nnn.toNat + v.toNat :=
  Nat.mod_eq_of_lt (by omega)

theorem State.pc_skipIf_of_iff (s : State) {b : Bool} {P : Prop} [Decidable P] (h : b = true ↔ P) :
    (s.skipIf b).pc = if P then s.pc + 4 else s.pc + 2 := by
  rw [State.skipIf_pc, if_congr h rfl rfl, apply_ite (s.pc + ·)]

theorem State.pc_skipIf_of_iff_not (s : State) {b : Bool} {P : Prop} [Decidable P] (h : b = true ↔ ¬ P) :
    (s.skipIf b).pc = if P then s.pc + 2 else s.pc + 4 := by
  rw [s.pc_skipIf_of_iff h, ite_not]

/-- The key test compares the code with all 8 bits (R95). -/
theorem State.pressed_iff (s : State) (v : Byte) : s.pressed v = true ↔ s.key.map Fin.val = some v.toNat := by
  cases hk : s.key <;> simp [State.pressed, hk]

/-- The pc an instruction leaves when it completes (R59). -/
def pcAfter (i : Instr) (s : State) : Word :=
  match i with
  | .jp nnn | .call nnn => zext16 nnn
  | .jpV0 nnn => BitVec.ofNat 16 (nnn.toNat + (s.getV 0).toNat)
  | .ret => s.stack[s.sp.val - 1]'(by omega)
  | .seImm x nn => if s.getV x = nn then s.pc + 4 else s.pc + 2
  | .sneImm x nn => if s.getV x ≠ nn then s.pc + 4 else s.pc + 2
  | .seReg x y => if s.getV x = s.getV y then s.pc + 4 else s.pc + 2
  | .sneReg x y => if s.getV x ≠ s.getV y then s.pc + 4 else s.pc + 2
  | .skp x => if s.key.map Fin.val = some (s.getV x).toNat then s.pc + 4 else s.pc + 2
  | .sknp x => if s.key.map Fin.val = some (s.getV x).toNat then s.pc + 2 else s.pc + 4
  | .ldVxK _ => if s.key = none then s.pc else s.pc + 2
  | _ => s.pc + 2

theorem exec_pc {i : Instr} {s t : State} (h : exec i s = .next t) (ht : t.status ≠ .halted) :
    t.pc = pcAfter i s := by
  cases i with
  | ret =>
    obtain ⟨_, rfl⟩ | ⟨_, rfl⟩ := execRet_cases h
    · rfl
    · exact absurd rfl ht
  | call nnn =>
    obtain ⟨_, rfl⟩ | ⟨_, rfl⟩ := callWith_cases h
    · rfl
    · exact absurd rfl ht
  | drw x y n =>
    obtain ⟨_, _, _, _, rfl⟩ | ⟨_, _, rfl⟩ := drwWith_cases h
    · rfl
    · exact absurd rfl ht
  | ldB x =>
    obtain ⟨_, _, rfl⟩ | ⟨_, _, rfl⟩ := ldBWith_cases h
    · rfl
    · exact absurd rfl ht
  | store x =>
    obtain ⟨_, _, rfl⟩ | ⟨_, _, rfl⟩ := storeWith_cases h
    · rfl
    · exact absurd rfl ht
  | load x =>
    obtain ⟨_, _, rfl⟩ | ⟨_, _, rfl⟩ := loadWith_cases h
    · rw [State.setVFrom_eq]
      rfl
    · exact absurd rfl ht
  | ldVxK x =>
    obtain ⟨hk, rfl⟩ | ⟨k, hk, rfl⟩ := execLdVxK_cases h
    · exact (if_pos hk).symm
    · exact (if_neg (by rw [hk]; nofun)).symm
  | seImm | seReg =>
    obtain rfl := Host.Outcome.next.inj h
    exact s.pc_skipIf_of_iff beq_iff_eq
  | sneImm | sneReg =>
    obtain rfl := Host.Outcome.next.inj h
    exact s.pc_skipIf_of_iff bne_iff_ne
  | skp x =>
    obtain rfl := Host.Outcome.next.inj h
    exact s.pc_skipIf_of_iff (s.pressed_iff _)
  | sknp x =>
    obtain rfl := Host.Outcome.next.inj h
    exact s.pc_skipIf_of_iff_not (by rw [Bool.not_eq_true', ← Bool.not_eq_true, s.pressed_iff])
  | _ =>
    obtain rfl := Host.Outcome.next.inj h
    rfl

/-- Settles O21: a raise keeps pc, and an instruction that completes leaves the pc of its row of `pcAfter`. -/
theorem programCounterAdvancesAsListed : Obligations.ProgramCounterAdvancesAsListed := by
  intro i s t hs h
  refine ⟨fun ht => ?_, fun ht => ?_⟩
  · obtain ⟨r, rfl⟩ := exec_halted hs h ht
    rfl
  have hpc := exec_pc h ht
  have row {j : Instr} (hj : i = j) : t.pc = pcAfter j s := hj ▸ hpc
  refine ⟨?_, fun nnn hi => row hi ▸ toNat_jumpV0 nnn _, fun hi => row hi ▸ Vector.getElem?_eq_getElem _,
    fun _ _ => row, fun _ _ => row, fun _ _ => row, fun _ _ => row, fun _ => row, fun _ => row, fun _ => row,
    fun hadvances => ?_⟩
  · rintro nnn (hi | hi) <;> exact row hi ▸ toNat_zext16 nnn
  · cases i with
    | jp | call | jpV0 | ret | seImm | sneImm | seReg | sneReg | skp | sknp | ldVxK => exact hadvances.elim
    | _ => exact hpc

/-! ### The instructions of the family, one by one (R62 to R70) -/

theorem encode_sys (nnn : Addr12) : encode (.sys nnn) = BitVec.ofNat 16 nnn.toNat :=
  congrArg (BitVec.ofNat 16) (Nat.zero_add _)

/-- 0NNN is in class 0 of the table of undefined opcodes under `fault` (R55, R62). -/
theorem decodeWith_fault_sys {nnn : Addr12} (hcls : nnn ≠ 0x0E0) (hret : nnn ≠ 0x0EE) :
    decodeWith .fault (BitVec.ofNat 16 nnn.toNat) = .error (.undefined (BitVec.ofNat 16 nnn.toNat)) := by
  have hw : (BitVec.ofNat 16 nnn.toNat).toNat = nnn.toNat := Nat.mod_eq_of_lt (by omega)
  refine (decodeWith_fault_error_iff _).mpr (.inr ?_)
  rw [hw]
  exact ⟨by omega, mt (BitVec.eq_of_toNat_eq (y := 0x0E0)) hcls, mt (BitVec.eq_of_toNat_eq (y := 0x0EE)) hret⟩

/-- Settles O28: 0NNN is the encoding of SYS nnn under `nop`, and the Step raises on its decoding under `fault`. -/
theorem sysOnlyAdvances : Obligations.SysOnlyAdvances := by
  intro nnn s hcls hret
  refine ⟨encode_sys nnn ▸ decode_encode (by simpa [Instr.wellFormed] using ⟨hcls, hret⟩),
    decodeWith_fault_sys hcls hret, ⟨_, rfl, rfl, sameBut_of_overwritten rfl⟩, fun p rnd hp hs hf => ?_⟩
  exact ⟨_, runStep_decode_error _ hs hf (hp ▸ decodeWith_fault_sys hcls hret), haltsWith_raise _ _ _⟩

/-- Settles O29: RET answers, and what it answers is the popped state or the raise, by sp. -/
theorem returnPopsOrUnderflows : Obligations.ReturnPopsOrUnderflows := by
  refine ⟨decode_encode (i := .ret) rfl, fun s => ?_⟩
  obtain ⟨t, ht⟩ := exec_answers .ret s
  obtain ⟨hsp, rfl⟩ | ⟨hsp, rfl⟩ := execRet_cases ht
  · exact ⟨fun _ => ⟨_, ht, Nat.sub_add_cancel hsp, Vector.getElem?_eq_getElem _, sameBut_of_overwritten rfl⟩,
      fun h0 => absurd h0 hsp.ne'⟩
  · exact ⟨fun h => absurd hsp h.ne', fun _ => ⟨_, ht, haltsWith_raise _ _ _⟩⟩

/-- Settles O30: the targets are numbers below 2^16. -/
theorem jumpsSetTheProgramCounter : Obligations.JumpsSetTheProgramCounter := fun nnn _ =>
  ⟨⟨decode_encode (i := .jp nnn) rfl, _, rfl, toNat_zext16 nnn, sameBut_of_overwritten rfl⟩,
    decode_encode (i := .jpV0 nnn) rfl, _, rfl, toNat_jumpV0 nnn _, sameBut_of_overwritten rfl⟩

/-- CALL below the stack depth pushes pc + 2 and jumps (R65). -/
theorem callWith_pushes {p : Params} {nnn : Addr12} {s : State} (hsp : s.sp.val < p.stackDepth.val) :
    ∃ t, callWith p nnn s = .next t ∧ t.stack[s.sp.val]? = some (s.pc + 2) ∧
      (∀ j, j ≠ s.sp.val → t.stack[j]? = s.stack[j]?) ∧ t.sp.val = s.sp.val + 1 ∧ t.pc.toNat = nnn.toNat ∧
      SameBut [.stack, .sp, .pc] s t := by
  obtain ⟨t, ht⟩ := execWith_answers p 0 (.call nnn) s
  obtain ⟨_, rfl⟩ | ⟨hfull, _⟩ := callWith_cases ht
  · exact ⟨_, ht, Vector.getElem?_set_self (by omega), fun j hj => Vector.getElem?_set_ne (by omega) hj.symm, rfl,
      toNat_zext16 nnn, sameBut_of_overwritten rfl⟩
  · omega

/-- CALL at the stack depth raises StackOverflow (R65). -/
theorem callWith_overflows {p : Params} {nnn : Addr12} {s : State} (hsp : s.sp.val = p.stackDepth.val) :
    ∃ t, callWith p nnn s = .next t ∧ HaltsWith .stackOverflow (some (encode (.call nnn))) none s t := by
  obtain ⟨t, ht⟩ := execWith_answers p 0 (.call nnn) s
  obtain ⟨hlt, _⟩ | ⟨_, rfl⟩ := callWith_cases ht
  · omega
  · exact ⟨_, ht, haltsWith_raise _ _ _⟩

/-- Settles O31: this hardware is the case STACK_DEPTH = 16 of both lemmas. -/
theorem callPushesOrOverflows : Obligations.CallPushesOrOverflows := fun nnn _ =>
  ⟨decode_encode (i := .call nnn) rfl, callWith_pushes (p := Params.hardware),
    callWith_overflows (p := Params.hardware), fun _ _ => ⟨callWith_pushes, callWith_overflows⟩⟩

/-- Settles O32: RET pops the entry that CALL pushed. -/
theorem callThenReturnComesBack : Obligations.CallThenReturnComesBack := by
  intro nnn s hsp
  obtain ⟨t, ht⟩ := exec_answers (.call nnn) s
  obtain ⟨_, rfl⟩ | ⟨hfull, _⟩ := callWith_cases ht
  · obtain ⟨u, hu⟩ := exec_answers .ret _
    obtain ⟨_, rfl⟩ | ⟨hempty, _⟩ := execRet_cases hu
    · exact ⟨_, _, ht, hu, Vector.getElem_set_self _, fun j hj => Vector.getElem?_set_ne (by omega) hj.symm,
        sameBut_of_overwritten rfl⟩
    · exact absurd hempty (Nat.succ_ne_zero _)
  · exact absurd hsp (Nat.not_lt.mpr hfull)

/-- Settles O33: both skips are `skipIf`, by the comparison and by its negation. -/
theorem skipsOnAnImmediate : Obligations.SkipsOnAnImmediate := fun x nn s =>
  ⟨⟨decode_encode (i := .seImm x nn) rfl, _, rfl, s.pc_skipIf_of_iff beq_iff_eq, sameBut_of_overwritten rfl⟩,
    decode_encode (i := .sneImm x nn) rfl, _, rfl, s.pc_skipIf_of_iff_not bne_iff_ne, sameBut_of_overwritten rfl⟩

/-- Classes 5 and 9 are undefined for every low nibble but 0 (R55). -/
theorem decode_regReg_undefined {m k : Nat} {op : Word} {x y : Reg} (hm : m = 0x5000 ∨ m = 0x9000) (hpos : 0 < k)
    (hk : k < 16) (hop : op = BitVec.ofNat 16 (m + x.val * 0x100 + y.val * 0x10 + k)) :
    decode op = .error (.undefined op) := by
  have hw : op.toNat = m + x.val * 0x100 + y.val * 0x10 + k := hop ▸ Nat.mod_eq_of_lt (by omega)
  refine (decode_reading op).error_iff.mpr ?_
  obtain rfl | rfl := hm
  · exact .inl ⟨by omega, by omega⟩
  · exact .inr (.inr (.inl ⟨by omega, by omega⟩))

/-- Settles O34: both skips are `skipIf`, and the table of undefined opcodes has classes 5 and 9 with a low nibble. -/
theorem skipsOnTwoRegisters : Obligations.SkipsOnTwoRegisters := fun x y s =>
  ⟨⟨decode_encode (i := .seReg x y) rfl, fun _ _ => decode_regReg_undefined (.inl rfl), _, rfl,
      s.pc_skipIf_of_iff beq_iff_eq, sameBut_of_overwritten rfl⟩,
    decode_encode (i := .sneReg x y) rfl, fun _ _ => decode_regReg_undefined (.inr rfl), _, rfl,
    s.pc_skipIf_of_iff_not bne_iff_ne, sameBut_of_overwritten rfl⟩

end Sys2Proof.Machine
end

section
/-! PROOFS of the register load and ALU statements (spec/41_register_alu.md): what the flag computations give as numbers
(R71, R79 to R83), the two ways a register instruction ends (R72), and the instructions (R73 to R84). -/

namespace Sys2Proof.Machine

/-! ### The flag computations as numbers (R71, R79 to R83) -/

@[simp] theorem flagByte_decide (P : Prop) [Decidable P] : flagByte (decide P) = if P then 1 else 0 := by
  simp only [flagByte, decide_eq_true_eq]

@[simp] theorem toNat_flagByte (b : Bool) : (flagByte b).toNat = b.toNat := by cases b <;> rfl

section Flags

variable (a b v : Byte)

theorem toNat_addCarry_fst : (addCarry a b).1.toNat = (a.toNat + b.toNat) % 256 := rfl

theorem addCarry_snd : (addCarry a b).2 = if a.toNat + b.toNat > 255 then 1 else 0 := flagByte_decide _

theorem toNat_subNotBorrow_fst : (subNotBorrow a b).1.toNat = (a.toNat + 256 - b.toNat) % 256 := by
  rw [subNotBorrow, BitVec.toNat_ofInt]
  omega

theorem subNotBorrow_snd : (subNotBorrow a b).2 = if a.toNat < b.toNat then 0 else 1 := by
  have hborrow : (a.toNat : Int) - b.toNat < 0 ↔ a.toNat < b.toNat := by omega
  simp only [subNotBorrow, flagByte_decide, hborrow, ite_not]

theorem toNat_shiftRight_fst : (shiftRight v).1.toNat = v.toNat / 2 := BitVec.toNat_ushiftRight v 1

theorem toNat_shiftRight_snd : (shiftRight v).2.toNat = v.toNat % 2 := by
  rw [shiftRight, toNat_flagByte, BitVec.getLsbD, Nat.toNat_testBit, Nat.pow_zero, Nat.div_one]

theorem toNat_shiftLeft_fst : (shiftLeft v).1.toNat = v.toNat * 2 % 256 := by
  rw [shiftLeft, BitVec.toNat_shiftLeft, Nat.shiftLeft_eq]

theorem toNat_shiftLeft_snd : (shiftLeft v).2.toNat = v.toNat / 128 := by
  have hbit : v.toNat / 2 ^ 7 < 2 := by omega
  rw [shiftLeft, toNat_flagByte, BitVec.getLsbD, Nat.toNat_testBit]
  exact Nat.mod_eq_of_lt hbit

end Flags

/-! ### The two ways a register instruction ends (R72) -/

theorem registerOnly_setV (s : State) (x : Reg) (v : Byte) : RegisterOnly [x] s ((s.setV x v).advance 2) :=
  ⟨regsBut_setV s x v, rfl, sameBut_of_overwritten rfl⟩

theorem registerOnly_setVFlag (s : State) (x : Reg) (rf : Byte × Byte) :
    RegisterOnly [x, VF] s ((s.setVFlag x rf).advance 2) :=
  ⟨regsBut_setVFlag s x rf, rfl, sameBut_of_overwritten rfl⟩

theorem State.getV_setVFlag_VF (s : State) (x : Reg) (rf : Byte × Byte) : (s.setVFlag x rf).getV VF = rf.2 :=
  State.getV_setV_self _ VF rf.2

/-- The result stands in the destination unless the flag replaces it. -/
theorem State.toNat_getV_setVFlag_self (s : State) {x : Reg} {rf : Byte × Byte} {n : Nat} (h : rf.1.toNat = n)
    (hx : x ≠ VF) : ((s.setVFlag x rf).getV x).toNat = n := by
  rw [State.getV_setVFlag, if_neg hx, if_pos rfl, h]

/-! ### Loads, copy, logic and add-immediate (R73 to R78) -/

/-- Settles O35: the load is one register write. -/
theorem loadImmediateSetsTheRegister : Obligations.LoadImmediateSetsTheRegister := fun x nn s =>
  ⟨decode_encode (i := .ldImm x nn) rfl, _, rfl, s.getV_setV_self x nn, registerOnly_setV s x nn⟩

/-- Settles O36: the add is one register write, of the sum as a byte. -/
theorem addImmediateWrapsWithoutCarry : Obligations.AddImmediateWrapsWithoutCarry := fun x nn s =>
  ⟨decode_encode (i := .addImm x nn) rfl, _, rfl, congrArg BitVec.toNat (s.getV_setV_self x _),
    registerOnly_setV s x _⟩

/-- Settles O37: each is one register write, and the operations of `BitVec` are bit by bit. -/
theorem copyAndLogicWriteOnlyTheDestination : Obligations.CopyAndLogicWriteOnlyTheDestination := by
  intro x y s
  have bit (v : Byte) (b : Nat) : (((s.setV x v).advance 2).getV x).getLsbD b = v.getLsbD b :=
    congrArg (BitVec.getLsbD · b) (s.getV_setV_self x v)
  refine ⟨⟨decode_encode (i := .mov x y) rfl, _, rfl, s.getV_setV_self x _, registerOnly_setV s x _⟩,
    ⟨decode_encode (i := .or x y) rfl, _, rfl, fun b => ?_, registerOnly_setV s x _⟩,
    ⟨decode_encode (i := .and x y) rfl, _, rfl, fun b => ?_, registerOnly_setV s x _⟩,
    ⟨decode_encode (i := .xor x y) rfl, _, rfl, fun b => ?_, registerOnly_setV s x _⟩⟩
  · exact (bit _ b).trans BitVec.getLsbD_or
  · exact (bit _ b).trans BitVec.getLsbD_and
  · exact (bit _ b).trans BitVec.getLsbD_xor

/-! ### Arithmetic and shifts with a flag (R79 to R83) -/

/-- Settles O38: the result and the flag of `addCarry`. -/
theorem addSetsTheCarry : Obligations.AddSetsTheCarry := fun x y s =>
  ⟨decode_encode (i := .add x y) rfl, _, rfl,
    s.toNat_getV_setVFlag_self (toNat_addCarry_fst _ _),
    (s.getV_setVFlag_VF x _).trans (addCarry_snd _ _), registerOnly_setVFlag s x _⟩

/-- Settles O39: the result and the flag of `subNotBorrow`, with the operands as they stand and exchanged. -/
theorem subtractionsSetNotBorrow : Obligations.SubtractionsSetNotBorrow := fun x y s =>
  ⟨⟨decode_encode (i := .sub x y) rfl, _, rfl,
      s.toNat_getV_setVFlag_self (toNat_subNotBorrow_fst _ _),
      (s.getV_setVFlag_VF x _).trans (subNotBorrow_snd _ _), registerOnly_setVFlag s x _⟩,
    decode_encode (i := .subn x y) rfl, _, rfl,
    s.toNat_getV_setVFlag_self (toNat_subNotBorrow_fst _ _),
    (s.getV_setVFlag_VF x _).trans (subNotBorrow_snd _ _), registerOnly_setVFlag s x _⟩

/-- Settles O40: the result and the flag of `shiftRight` and of `shiftLeft`, which do not read Vy. -/
theorem shiftsCaptureTheBitShiftedOut : Obligations.ShiftsCaptureTheBitShiftedOut := fun x y s =>
  ⟨⟨decode_encode (i := .shr x y) rfl, _, rfl,
      s.toNat_getV_setVFlag_self (toNat_shiftRight_fst _),
      (congrArg BitVec.toNat (s.getV_setVFlag_VF x _)).trans (toNat_shiftRight_snd _), registerOnly_setVFlag s x _⟩,
    decode_encode (i := .shl x y) rfl, _, rfl,
    s.toNat_getV_setVFlag_self (toNat_shiftLeft_fst _),
    (congrArg BitVec.toNat (s.getV_setVFlag_VF x _)).trans (toNat_shiftLeft_snd _), registerOnly_setVFlag s x _⟩

/-! ### The random-masked load (R84) -/

/-- Settles O41: one register write, of the draw of the Step under the mask. -/
theorem randomLoadMasksTheDraw : Obligations.RandomLoadMasksTheDraw := fun x nn s =>
  ⟨decode_encode (i := .rnd x nn) rfl, fun _ rnd =>
    ⟨_, rfl, s.getV_setV_self x (rnd &&& nn), registerOnly_setV s x (rnd &&& nn)⟩⟩

/-- Settles O42: one register write after the counter has moved on. -/
theorem randomLoadTakesAFreeDraw : Obligations.RandomLoadTakesAFreeDraw := fun x _ s =>
  ⟨_, rfl, s.noteDraw.getV_setV_self x _, rfl, rfl, regsBut_setV s.noteDraw x _, sameBut_of_overwritten rfl⟩

end Sys2Proof.Machine
end

section
/-! PROOFS of the index register and memory statements (spec/42_index_memory.md): the glyph address and the decimal
digits as numbers (R89, R90), how FX33, FX55 and FX65 complete at any parameters and how they fault (R86, R90 to R92,
R105), and from these the statements, for this hardware through its targets I + k. -/

namespace Sys2Proof.Machine

/-! ### Writes of I (R87 to R89) -/

/-- The glyph address of a legal FONT_BASE is below 2^16. -/
theorem toNat_glyphAddress {p : Params} (hp : p.legal) (v : Byte) :
    (glyphAddress p v).toNat = p.fontBase + 5 * (v.toNat % 16) := by
  have hnibble : (v &&& 0x0F).toNat = v.toNat % 16 := (BitVec.toNat_and ..).trans (Nat.and_two_pow_sub_one_eq_mod _ 4)
  unfold Params.legal at hp
  rw [glyphAddress, hnibble, BitVec.toNat_ofNat]
  omega

/-- Settles O43: each is one write of I. -/
theorem indexLoadAndIncrement : Obligations.IndexLoadAndIncrement :=
  ⟨fun nnn _ => ⟨decode_encode (i := .ldI nnn) rfl, _, rfl, toNat_zext16 nnn, rfl, sameBut_of_overwritten rfl⟩,
    fun x _ => ⟨decode_encode (i := .addI x) rfl, _, rfl, rfl, rfl, sameBut_of_overwritten rfl⟩⟩

/-- FX29 writes the glyph address to I, at any legal parameters. -/
theorem ldFWith_completes {p : Params} (hp : p.legal) (x : Reg) (s : State) :
    ∃ t, ldFWith p x s = .next t ∧ t.I.toNat = p.fontBase + 5 * ((s.getV x).toNat % 16) ∧ t.pc = s.pc + 2 ∧
      SameBut [.I, .pc] s t :=
  ⟨_, rfl, toNat_glyphAddress hp _, rfl, sameBut_of_overwritten rfl⟩

/-- Settles O44: this hardware is the case FONT_BASE = 0. -/
theorem glyphAddressOfTheLowNibble : Obligations.GlyphAddressOfTheLowNibble := by
  intro x s
  obtain ⟨t, ht, hI, hrest⟩ := ldFWith_completes (p := Params.hardware) (by decide) x s
  exact ⟨decode_encode (i := .ldF x) rfl, ⟨t, ht, hI.trans (Nat.zero_add _), hrest⟩,
    fun _ _ hp => ldFWith_completes hp x s⟩

/-! ### The bytes stored (R90, R91) -/

/-- Only the n bytes named matter. -/
theorem Stored.congr {p : Params} {n : Nat} {v w : Nat → Byte} {s t : State} (h : Stored p n v s t)
    (hvw : ∀ k, k < n → v k = w k) : Stored p n w s t := by
  obtain ⟨hbytes, hframe⟩ := h
  exact ⟨fun k hk => (hbytes k hk).trans (hvw k hk), hframe⟩

/-- Digit k of a byte, the hundreds first (R90). -/
theorem getD_bcdDigits (v : Byte) {k : Nat} (hk : k < 3) :
    (bcdDigits v).getD k 0 = BitVec.ofNat 8 (v.toNat / 10 ^ (2 - k) % 10) := by
  have hhundreds : v.toNat / 100 % 10 = v.toNat / 100 := Nat.mod_eq_of_lt (by omega)
  match k with
  | 0 => exact congrArg (BitVec.ofNat 8) hhundreds.symm
  | 1 => rfl
  | 2 => exact congrArg (fun n => BitVec.ofNat 8 (n % 10)) (Nat.div_one _).symm

/-- The three digits stored, as numbers. -/
theorem Stored.digits {p : Params} {v : Byte} {s t : State}
    (h : Stored p 3 (fun k => BitVec.ofNat 8 (v.toNat / 10 ^ (2 - k) % 10)) s t) :
    (t.mem.read (target p s 0)).toNat = v.toNat / 100 ∧ (t.mem.read (target p s 1)).toNat = v.toNat / 10 % 10 ∧
      (t.mem.read (target p s 2)).toNat = v.toNat % 10 := by
  obtain ⟨hbytes, _⟩ := h
  rw [hbytes 0 (by decide), hbytes 1 (by decide), hbytes 2 (by decide)]
  simp only [BitVec.toNat_ofNat]
  omega

/-- Each register of the range stands at its target. -/
theorem Stored.register {p : Params} {x : Reg} {s t : State}
    (h : Stored p (x.val + 1) (fun k => s.getV (Fin.ofNat 16 k)) s t) {k : Reg} (hk : k ≤ x) :
    t.mem.read (target p s k.val) = s.getV k := by
  obtain ⟨hbytes, _⟩ := h
  exact (hbytes k.val (Nat.lt_succ_of_le hk)).trans (congrArg s.getV (Fin.ofNat_val_eq_self k))

/-! ### The transfers complete (R86, R90 to R92) -/

/-- FX33 stores the digits where its targets are inside memory and unprotected. -/
theorem ldBWith_completes {p : Params} (x : Reg) {s : State} (hm : s.mem.wf) (hin : TargetsInMemory p s 3)
    (hw : TargetsWritable p s 3) :
    ∃ t, ldBWith p x s = .next t ∧
      Stored p 3 (fun k => BitVec.ofNat 8 ((s.getV x).toNat / 10 ^ (2 - k) % 10)) s t ∧ t.pc = s.pc + 2 ∧
      SameBut [.mem, .pc] s t := by
  refine ⟨_, State.attempt_map_ok s _ _ (writeTargets_targets hin hw), ?_, rfl, sameBut_of_overwritten rfl⟩
  exact (stored_writeAll (vs := bcdDigits (s.getV x)) hm hin (by decide : 3 ≤ 4096) rfl).congr
    fun k => getD_bcdDigits _

/-- FX55 stores the register range where its targets are inside memory and unprotected. -/
theorem storeWith_completes {p : Params} (x : Reg) {s : State} (hm : s.mem.wf) (hin : TargetsInMemory p s (x.val + 1))
    (hw : TargetsWritable p s (x.val + 1)) :
    ∃ t, storeWith p x s = .next t ∧ Stored p (x.val + 1) (fun k => s.getV (Fin.ofNat 16 k)) s t ∧
      t.I = (if p.lsIncrementI then s.I + BitVec.ofNat 16 (x.val + 1) else s.I) ∧ t.pc = s.pc + 2 ∧
      SameBut [.mem, .I, .pc] s t := by
  refine ⟨_, State.attempt_map_ok s _ _ (writeTargets_targets hin hw), ?_⟩
  rw [State.bumpI_eq]
  refine ⟨?_, rfl, rfl, sameBut_of_overwritten rfl⟩
  have hlen : (s.rangeV x).length = x.val + 1 := s.length_rangeV x
  have hstored := stored_writeAll (vs := s.rangeV x) (t := { s with mem := s.mem.writeAll _ }) hm (hlen ▸ hin)
    (by omega) rfl
  rw [hlen] at hstored
  refine hstored.congr fun k hk => ?_
  rw [State.getD_rangeV s (by omega)]
  exact congrArg s.getV (Fin.ext (Nat.mod_eq_of_lt (by omega)).symm)

/-- A block load gives V0 to Vx the bytes and leaves the higher registers (R92). -/
theorem State.getV_setVFrom_map_range (s : State) (f : Nat → Byte) (n : Nat) (q : Reg) :
    (s.setVFrom 0 ((List.range n).map f)).getV q = if q.val < n then f q.val else s.getV q := by
  rw [State.getV_setVFrom, if_pos (Nat.zero_le _), Nat.sub_zero]
  split
  · rw [List.getD_eq_getElem _ _ (by simpa), List.getElem_map, List.getElem_range]
  · exact List.getD_eq_default _ _ (by simpa using ‹¬ q.val < n›)

/-- FX65 loads the register range where its targets are inside memory. -/
theorem loadWith_completes {p : Params} (x : Reg) {s : State} (hin : TargetsInMemory p s (x.val + 1)) :
    ∃ t, loadWith p x s = .next t ∧ (∀ k : Reg, k ≤ x → t.getV k = s.mem.read (target p s k.val)) ∧
      (∀ k : Reg, x < k → t.getV k = s.getV k) ∧
      t.I = (if p.lsIncrementI then s.I + BitVec.ofNat 16 (x.val + 1) else s.I) ∧ t.pc = s.pc + 2 ∧
      SameBut [.regs, .I, .pc] s t := by
  refine ⟨_, State.attempt_map_ok s _ _ (readTargets_targets hin), ?_⟩
  rw [List.map_map, State.bumpI_eq]
  have hreg := s.getV_setVFrom_map_range (s.mem.read ∘ target p s) (x.val + 1)
  refine ⟨fun k hk => (hreg k).trans (if_pos (Nat.lt_succ_of_le hk)),
    fun k hk => (hreg k).trans (if_neg (Nat.not_lt.mpr hk)), ?_⟩
  rw [State.setVFrom_eq]
  exact ⟨rfl, rfl, sameBut_of_overwritten rfl⟩

/-! ### The transfers fault (R86, R105) -/

/-- An instruction whose addresses fail to resolve halts with their error, nothing else changed. -/
theorem State.attempt_map_halts {α : Type} (s : State) (i : Instr) (g : α → State) {c : Except Raised α} {r : Raised}
    (h : c = .error r) :
    ∃ t, s.attempt i (c.map g) = .next t ∧ HaltsWith r.cause (some (encode i)) r.addr s t :=
  ⟨_, State.attempt_map_error s i g h, haltsWith_raise s _ r⟩

/-- Settles O49: each transfer is an `attempt` at its targets, which resolve or fail by the hypotheses of the clause. -/
theorem transfersAtEveryParameterValue : Obligations.TransfersAtEveryParameterValue := fun _ _ x s hm =>
  ⟨ldBWith_completes x hm, storeWith_completes x hm, loadWith_completes x,
    fun hout => s.attempt_map_halts (.ldB x) _ (writeTargets_outOfMemory hout (Nat.succ_pos _)),
    fun hout => ⟨s.attempt_map_halts (.store x) _ (writeTargets_outOfMemory hout (Nat.succ_pos _)),
      s.attempt_map_halts (.load x) _ (readTargets_outOfMemory hout (Nat.succ_pos _))⟩,
    fun _ hin hfirst => s.attempt_map_halts (.ldB x) _ (writeTargets_firstProtected hin hfirst),
    fun _ hin hfirst => s.attempt_map_halts (.store x) _ (writeTargets_firstProtected hin hfirst)⟩

/-! ### Under mask and allow (R43, R44) -/

/-- Settles O48: under mask every target is inside memory, under allow every one is writable. -/
theorem transfersUnderMaskAndIncrement : Obligations.TransfersUnderMaskAndIncrement := by
  intro p rnd x s hm hmask hallow
  have htarget (k : Nat) : target p s k = (s.I.toNat + k) % 4096 := target_mask hmask s k
  refine ⟨?_, ?_, ?_⟩
  · obtain ⟨t, ht, hstored, hpc, hsame⟩ := ldBWith_completes x hm (.inl hmask) (.inl hallow)
    obtain ⟨hhundreds, htens, hones⟩ := hstored.digits
    obtain ⟨_, hframe⟩ := hstored
    simp only [htarget] at hhundreds htens hones hframe
    exact ⟨t, ht, hhundreds, htens, hones, hframe, hpc, hsame⟩
  · obtain ⟨t, ht, hstored, hrest⟩ := storeWith_completes x hm (.inl hmask) (.inl hallow)
    have hregs (k : Reg) := hstored.register (k := k)
    obtain ⟨_, hframe⟩ := hstored
    simp only [htarget, Nat.lt_succ_iff] at hregs hframe
    exact ⟨t, ht, hregs, hframe, hrest⟩
  · obtain ⟨t, ht, hloaded, hrest⟩ := loadWith_completes x (s := s) (.inl hmask)
    simp only [htarget] at hloaded
    exact ⟨t, ht, hloaded, hrest⟩

/-! ### On this hardware (R86, R90 to R92) -/

/-- The targets of this hardware are I + k: all inside memory exactly where the last is. -/
theorem targetsInMemory_hardware {s : State} {n : Nat} :
    TargetsInMemory Params.hardware s n ↔ s.I.toNat + n ≤ 0x1000 :=
  or_iff_right nofun

theorem targetsWritable_hardware {s : State} (n : Nat) (hlow : 0x200 ≤ s.I.toNat) :
    TargetsWritable Params.hardware s n :=
  .inr fun _ _ => Nat.le_add_right_of_le hlow

/-- A write from below 0x200 meets the protection at its first byte. -/
theorem firstProtected_hardware {s : State} {n : Nat} (hn : 0 < n) (hlow : s.I.toNat < 0x200) :
    FirstProtected Params.hardware s n 0 :=
  ⟨rfl, hn, hlow, nofun⟩

/-- Nothing below the first target or above the last one is written. -/
theorem Stored.outside_hardware {n : Nat} {v : Nat → Byte} {s t : State}
    (h : Stored Params.hardware (n + 1) v s t) {a : Nat} (ha : a < s.I.toNat ∨ s.I.toNat + n < a) :
    t.mem.read a = s.mem.read a := by
  obtain ⟨_, hframe⟩ := h
  refine hframe a fun k hk => ?_
  rw [target_fault rfl]
  omega

/-- I, too, is kept where it has its old value. -/
theorem SameBut.of_keeps_I {q : Part} {s t : State} (h : SameBut [q, .I, .pc] s t) (hI : t.I = s.I) :
    SameBut [q, .pc] s t := fun r hr => by
  by_cases hrI : r = .I
  · exact hrI ▸ hI
  · exact h r (by simpa [hrI] using hr)

/-- Settles O45: this hardware is the case of `ldBWith_completes` with the targets I, I + 1 and I + 2. -/
theorem bcdStoreWritesThreeDigits : Obligations.BcdStoreWritesThreeDigits := by
  intro x s hm
  refine ⟨decode_encode (i := .ldB x) rfl, fun hlow htop => ?_,
    fun hlow => s.attempt_map_halts (.ldB x) _ (writeTargets_firstProtected
      (targetsInMemory_hardware.mpr (by omega)) (firstProtected_hardware (Nat.succ_pos _) hlow)),
    fun htop => s.attempt_map_halts (.ldB x) _ (writeTargets_outOfMemory
      (mt targetsInMemory_hardware.mp (by omega)) (Nat.succ_pos _))⟩
  obtain ⟨t, ht, hstored, hpc, hsame⟩ := ldBWith_completes x hm
    (targetsInMemory_hardware.mpr (by omega)) (targetsWritable_hardware 3 hlow)
  obtain ⟨hhundreds, htens, hones⟩ := hstored.digits
  exact ⟨t, ht, hhundreds, htens, hones, fun _ => hstored.outside_hardware, hpc, hsame⟩

/-- Settles O46: this hardware is the case of `storeWith_completes` with the targets I + k and I kept. -/
theorem blockStoreWritesTheRegisterRange : Obligations.BlockStoreWritesTheRegisterRange := by
  intro x s hm
  refine ⟨decode_encode (i := .store x) rfl, fun hlow htop => ?_,
    fun hlow => s.attempt_map_halts (.store x) _ (writeTargets_firstProtected
      (targetsInMemory_hardware.mpr (by omega)) (firstProtected_hardware (Nat.succ_pos _) hlow)),
    fun htop => s.attempt_map_halts (.store x) _ (writeTargets_outOfMemory
      (mt targetsInMemory_hardware.mp (by omega)) (Nat.succ_pos _))⟩
  obtain ⟨t, ht, hstored, hI, hpc, hsame⟩ := storeWith_completes x hm
    (targetsInMemory_hardware.mpr (by omega)) (targetsWritable_hardware _ hlow)
  exact ⟨t, ht, fun _ => hstored.register, fun _ => hstored.outside_hardware, hpc, hsame.of_keeps_I hI⟩

/-- Settles O47: this hardware is the case of `loadWith_completes` with the targets I + k and I kept. -/
theorem blockLoadReadsTheRegisterRange : Obligations.BlockLoadReadsTheRegisterRange := by
  intro x s
  refine ⟨decode_encode (i := .load x) rfl, fun htop => ?_,
    fun htop => s.attempt_map_halts (.load x) _ (readTargets_outOfMemory
      (mt targetsInMemory_hardware.mp (by omega)) (Nat.succ_pos _))⟩
  obtain ⟨t, ht, hloaded, hkept, hI, hpc, hsame⟩ :=
    loadWith_completes (p := Params.hardware) x (s := s) (targetsInMemory_hardware.mpr (by omega))
  exact ⟨t, ht, hloaded, hkept, hpc, hsame.of_keeps_I hI⟩

end Sys2Proof.Machine
end

section
/-! PROOFS of the display statements (spec/43_display.md): CLS (R93), the draw loop of R94 as the XOR of the sprite over
the screen at any parameters, and from it the statements about one draw and about two in a row. -/

namespace Sys2Proof.Machine

/-! ### Clear (R93) -/

/-- Settles O50: the framebuffer is blank afterwards, and only it and pc are written. -/
theorem clearScreenTurnsEveryPixelOff : Obligations.ClearScreenTurnsEveryPixelOff :=
  ⟨decode_encode (i := .cls) rfl, fun _ => ⟨_, rfl, Framebuffer.pixel_blank, rfl, sameBut_of_overwritten rfl⟩⟩

/-! ### The bytes of the sprite (R94) -/

/-- The n bytes that DXYN reads, the top row first. -/
def spriteBytes (p : Params) (s : State) (n : Nat) : List Byte := ((List.range n).map (target p s)).map s.mem.read

theorem length_spriteBytes (p : Params) (s : State) (n : Nat) : (spriteBytes p s n).length = n := by
  simp only [spriteBytes, List.length_map, List.length_range]

theorem getD_spriteBytes (p : Params) (s : State) {n k : Nat} (hk : k < n) :
    (spriteBytes p s n).getD k 0 = s.mem.read (target p s k) := by
  rw [List.getD_eq_getElem _ _ (by rwa [length_spriteBytes])]
  simp only [spriteBytes, List.getElem_map, List.getElem_range]

/-- A draw without rows resolves no address, so it needs none in memory. -/
theorem readTargets_sprite {p : Params} {s : State} {n : Nat} (h : n = 0 ∨ TargetsInMemory p s n) :
    readTargets p s.I.toNat n = .ok ((List.range n).map (target p s)) := by
  obtain rfl | h := h
  · rfl
  · exact readTargets_targets h

/-- Of the parameters, a read looks at ADDR_POLICY alone (R43). -/
theorem readTargets_congr {p q : Params} (h : p.addrPolicy = q.addrPolicy) (base n : Nat) :
    readTargets p base n = readTargets q base n := by
  have hresolve (a : Nat) : resolve p a = resolve q a := by simp only [resolve, h]
  unfold readTargets
  induction n generalizing base with
  | zero => rfl
  | succ n ih => simp only [resolveRange, hresolve, ih]

theorem drwWith_congr {p q : Params} (h : p.addrPolicy = q.addrPolicy) (x y : Reg) (n : Count) (s : State) :
    drwWith p x y n s = drwWith q x y n s := by
  rw [drwWith, readTargets_congr h, drwWith]

/-! ### One draw (R94) -/

/-- A 1 bit of the sprite falls on a pixel on screen that is on. -/
def SpriteCollides (resolved : Nat → Nat) (x y : Reg) (n : Count) (s : State) : Prop :=
  ∃ px py, px < 64 ∧ py < 32 ∧ s.fb.pixel px py = true ∧ spriteBitAt resolved s x y n px py = true

/-- `t` is `s` after DXYN: the sprite XORed over the screen, the collision in VF, nothing else changed but pc (R94). -/
structure Drawn (resolved : Nat → Nat) (x y : Reg) (n : Count) (s t : State) : Prop where
  pixels : ∀ px py, px < 64 → py < 32 →
    t.fb.pixel px py = (s.fb.pixel px py != spriteBitAt resolved s x y n px py)
  flag_one : SpriteCollides resolved x y n s → t.getV VF = 1
  flag_zero : ¬ SpriteCollides resolved x y n s → t.getV VF = 0
  regs : RegsBut [VF] s t
  pc : t.pc = s.pc + 2
  frame : SameBut [.regs, .fb, .pc] s t

section Drawn

variable {resolved : Nat → Nat} {x y : Reg} {n : Count} {s t : State}

theorem Drawn.flag_eq_one_iff (h : Drawn resolved x y n s t) : t.getV VF = 1 ↔ SpriteCollides resolved x y n s := by
  refine ⟨fun h1 => by_contra fun hn => ?_, h.flag_one⟩
  exact absurd (h1.symm.trans (h.flag_zero hn)) (by decide)

theorem Drawn.flag_eq_one_or_zero (h : Drawn resolved x y n s t) : t.getV VF = 1 ∨ t.getV VF = 0 :=
  (em _).imp h.flag_one h.flag_zero

theorem Drawn.keeps_I (h : Drawn resolved x y n s t) : t.I = s.I := h.frame .I (by decide)

end Drawn

section Draw

variable {p : Params} {resolved : Nat → Nat} {s : State} (hres : ∀ k, target p s k = resolved (s.I.toNat + k))
  (x y : Reg) (n : Count)

include hres

/-- The sprite bit over a pixel, in the bytes that are read. -/
theorem spriteBitAt_eq_spriteBytes (px py : Nat) : spriteBitAt resolved s x y n px py =
    (decide ((s.getV x).toNat ≤ px ∧ px < (s.getV x).toNat + 8 ∧ (s.getV y).toNat ≤ py ∧
        py < (s.getV y).toNat + (spriteBytes p s n.val).length) &&
      ((spriteBytes p s n.val).getD (py - (s.getV y).toNat) 0).getLsbD (7 - (px - (s.getV x).toNat))) := by
  refine Bool.eq_iff_iff.mpr ?_
  simp only [spriteBitAt, length_spriteBytes, Bool.and_eq_true, decide_eq_true_eq]
  refine and_congr_right fun ⟨_, _, _, hrow⟩ => ?_
  rw [getD_spriteBytes p s (by omega), hres]

/-- The draw loop finds a collision exactly if the sprite collides. -/
theorem collision_draw_iff :
    (s.fb.draw (s.getV x).toNat (s.getV y).toNat (spriteBytes p s n.val)).collision = true ↔
      SpriteCollides resolved x y n s := by
  simp only [Framebuffer.draw, Drawing.collision_rows, Bool.false_eq_true, false_or, SpriteCollides,
    spriteBitAt_eq_spriteBytes hres, Bool.and_eq_true, decide_eq_true_eq]
  constructor
  · rintro ⟨r, j, hr, hj, hbit, hon⟩
    obtain ⟨hx, hy⟩ := Framebuffer.onScreen_of_pixel hon
    refine ⟨_, _, hx, hy, hon, by omega, ?_⟩
    rwa [Nat.add_sub_cancel_left, Nat.add_sub_cancel_left]
  · rintro ⟨px, py, _, _, hon, ⟨hx, _, hy, _⟩, hbit⟩
    refine ⟨py - (s.getV y).toNat, px - (s.getV x).toNat, by omega, by omega, hbit, ?_⟩
    rwa [Nat.add_sub_cancel' hx, Nat.add_sub_cancel' hy]

/-- DXYN draws where its bytes resolve. -/
theorem drwWith_completes (h : n.val = 0 ∨ TargetsInMemory p s n.val) :
    ∃ t, drwWith p x y n s = .next t ∧ Drawn resolved x y n s t := by
  refine ⟨_, State.attempt_map_ok s _ _ (readTargets_sprite h), ?_⟩
  have hcollision := collision_draw_iff hres x y n
  refine ⟨fun px py hx hy => ?_, fun hc => ?_, fun hc => ?_, regsBut_setV _ _ _, rfl, sameBut_of_overwritten rfl⟩
  · rw [spriteBitAt_eq_spriteBytes hres]
    exact Drawing.pixel_rows _ hx hy _ _ _
  · exact (State.getV_setV_self _ VF _).trans (congrArg flagByte (hcollision.mpr hc))
  · exact (State.getV_setV_self _ VF _).trans (congrArg flagByte (Bool.eq_false_iff.mpr (mt hcollision.mp hc)))

end Draw

/-- Settles O52: under `fault` the same addresses resolve or fail as on this hardware; under mask all of them resolve. -/
theorem spriteDrawAtEveryParameterValue : Obligations.SpriteDrawAtEveryParameterValue := by
  intro p rnd x y n s
  refine ⟨fun hfault => ?_, fun hmask => ?_⟩
  · exact drwWith_congr (q := Params.hardware) hfault x y n s
  · obtain ⟨t, ht, hd⟩ := drwWith_completes (resolved := (· % 4096)) (target_mask hmask s) x y n (.inr (.inl hmask))
    exact ⟨t, ht, hd.pixels, hd.flag_eq_one_or_zero, hd.flag_eq_one_iff, hd.regs, hd.pc, hd.frame⟩

/-! ### On this hardware (R94) -/

theorem execDrw_completes (x y : Reg) {n : Count} {s : State} (h : n.val = 0 ∨ s.I.toNat + n.val ≤ 0x1000) :
    ∃ t, exec (.drw x y n) s = .next t ∧ Drawn (fun a => a) x y n s t :=
  drwWith_completes (target_fault rfl s) x y n (h.imp_right targetsInMemory_hardware.mpr)

/-- Settles O51: the draw completes where its bytes are inside memory, and else its addresses fail to resolve. -/
theorem spriteDrawIsAClippedXor : Obligations.SpriteDrawIsAClippedXor := by
  intro x y n s
  refine ⟨decode_encode (i := .drw x y n) rfl, fun hin => ?_, fun hpos htop => ?_⟩
  · obtain ⟨t, ht, hd⟩ := execDrw_completes x y hin
    exact ⟨t, ht, hd.pixels, hd.flag_one, hd.flag_zero, hd.regs, hd.pc, hd.frame⟩
  · exact s.attempt_map_halts (.drw x y n) _ (readTargets_outOfMemory
      (mt targetsInMemory_hardware.mp (by omega)) hpos)

/-! ### Two draws in a row (R94) -/

section Twice

variable {resolved : Nat → Nat} {x y : Reg} {n : Count} {s t u : State}

/-- A draw leaves I and memory, so with the coordinates not in VF it leaves its own sprite. -/
theorem Drawn.keeps_spriteBitAt (h : Drawn resolved x y n s t) (hx : x ≠ VF) (hy : y ≠ VF) (px py : Nat) :
    spriteBitAt resolved t x y n px py = spriteBitAt resolved s x y n px py := by
  have hmem : ∀ a, t.mem.read a = s.mem.read a := h.frame .mem (by decide)
  have hVx : t.getV x = s.getV x := h.regs x (mt List.mem_singleton.mp hx)
  have hVy : t.getV y = s.getV y := h.regs y (mt List.mem_singleton.mp hy)
  simp only [spriteBitAt, h.keeps_I, hmem, hVx, hVy]

theorem Drawn.pixel_twice (ht : Drawn resolved x y n s t) (hu : Drawn resolved x y n t u) {px py : Nat}
    (hpx : px < 64) (hpy : py < 32) : u.fb.pixel px py =
      ((s.fb.pixel px py != spriteBitAt resolved s x y n px py) != spriteBitAt resolved t x y n px py) := by
  rw [hu.pixels px py hpx hpy, ht.pixels px py hpx hpy]

/-- XOR with the same bit twice is no change; off screen no pixel is on before or after. -/
theorem Drawn.restores (ht : Drawn resolved x y n s t) (hu : Drawn resolved x y n t u) (hx : x ≠ VF) (hy : y ≠ VF)
    (px py : Nat) : u.fb.pixel px py = s.fb.pixel px py := by
  by_cases hscreen : px < 64 ∧ py < 32
  · rw [ht.pixel_twice hu hscreen.1 hscreen.2, ht.keeps_spriteBitAt hx hy, Bool.bne_self_right]
  · rw [Framebuffer.pixel_offScreen _ hscreen, Framebuffer.pixel_offScreen _ hscreen]

/-- After a draw, its sprite meets an on pixel exactly where it met an off one before. -/
theorem Drawn.collides_again_iff (ht : Drawn resolved x y n s t) (hx : x ≠ VF) (hy : y ≠ VF) :
    SpriteCollides resolved x y n t ↔ ∃ px py, px < 64 ∧ py < 32 ∧ spriteBitAt resolved s x y n px py = true ∧
      s.fb.pixel px py = false := by
  refine exists₂_congr fun px py => and_congr_right fun hpx => and_congr_right fun hpy => ?_
  rw [ht.pixels px py hpx hpy, ht.keeps_spriteBitAt hx hy, and_comm]
  refine and_congr_right fun hbit => ?_
  rw [hbit, Bool.bne_true, Bool.not_eq_true']

end Twice

/-- Settles O53: the first draw leaves I, so the second completes too. -/
theorem drawingTwiceRestoresTheScreen : Obligations.DrawingTwiceRestoresTheScreen := by
  intro x y n s hin
  obtain ⟨t, ht, hdt⟩ := execDrw_completes x y hin
  obtain ⟨u, hu, hdu⟩ := execDrw_completes x y (s := t) (hdt.keeps_I ▸ hin)
  exact ⟨t, u, ht, hu, fun _ _ => hdt.pixel_twice hdu, fun hx hy =>
    ⟨hdt.restores hdu hx hy, hdu.flag_eq_one_iff.trans (hdt.collides_again_iff hx hy)⟩⟩

end Sys2Proof.Machine
end

section
/-! PROOFS of the key and timer statements (spec/44_keys_timers.md): what the latch says of `pressed` (R95), the two key
skips (R96, R97), the wait for a key (R98) and the timer transfers (R99 to R101). -/

namespace Sys2Proof.Machine

/-! ### The key skips (R95 to R97) -/

theorem State.pressed_of_key {s : State} {k : Key} {v : Byte} (hk : s.key = some k) (hv : k.val = v.toNat) :
    s.pressed v = true :=
  (s.pressed_iff v).mpr (Option.map_eq_some_iff.mpr ⟨k, hk, hv⟩)

/-- A latch with no key meets the hypothesis vacuously: with none held nothing is pressed. -/
theorem State.not_pressed_of_key_ne {s : State} {v : Byte} (h : ∀ k, s.key = some k → k.val ≠ v.toNat) :
    s.pressed v = false := by
  refine Bool.eq_false_iff.mpr fun hp => ?_
  obtain ⟨k, hk, hv⟩ := Option.map_eq_some_iff.mp ((s.pressed_iff v).mp hp)
  exact h k hk hv

/-- Settles O54: both skips are `skipIf`, by `pressed` and by its negation. -/
theorem keySkipsCompareTheLatch : Obligations.KeySkipsCompareTheLatch := by
  intro x s
  have skp_pc {b : Bool} (h : s.pressed (s.getV x) = b) :
      (s.skipIf (s.pressed (s.getV x))).pc = (s.skipIf b).pc := by rw [h]
  have sknp_pc {b : Bool} (h : s.pressed (s.getV x) = b) :
      (s.skipIf (!s.pressed (s.getV x))).pc = (s.skipIf !b).pc := by rw [h]
  exact ⟨⟨decode_encode (i := .skp x) rfl, _, rfl, fun _ hk hv => skp_pc (State.pressed_of_key hk hv),
      fun h => skp_pc (State.not_pressed_of_key_ne h), sameBut_of_overwritten rfl⟩,
    decode_encode (i := .sknp x) rfl, _, rfl, fun _ hk hv => sknp_pc (State.pressed_of_key hk hv),
    fun h => sknp_pc (State.not_pressed_of_key_ne h), sameBut_of_overwritten rfl⟩

/-! ### The wait for a key (R98) -/

theorem toNat_ofNat_key (k : Key) : (BitVec.ofNat 8 k.val).toNat = k.val := Nat.mod_eq_of_lt (by omega)

/-- Settles O55: FX0A writes the status alone, or else the register, the status and pc. -/
theorem waitForKeyWaitsOrTakesTheKey : Obligations.WaitForKeyWaitsOrTakesTheKey := fun x s =>
  ⟨decode_encode (i := .ldVxK x) rfl,
    fun hk => ⟨_, execLdVxK_noKey x hk, rfl, sameBut_of_overwritten rfl⟩,
    fun k hk => ⟨_, execLdVxK_key x hk, (congrArg BitVec.toNat (s.getV_setV_self x _)).trans (toNat_ofNat_key k),
      regsBut_setV s x _, rfl, rfl, sameBut_of_overwritten rfl⟩⟩

/-! ### The timer transfers (R99 to R101) -/

/-- Settles O56: the read is one register write, and each write sets its timer alone. -/
theorem timerTransfers : Obligations.TimerTransfers := fun x s =>
  ⟨⟨decode_encode (i := .ldVxDT x) rfl, _, rfl, s.getV_setV_self x s.DT, registerOnly_setV s x s.DT⟩,
    ⟨decode_encode (i := .ldDTVx x) rfl, _, rfl, rfl, rfl, sameBut_of_overwritten rfl⟩,
    decode_encode (i := .ldSTVx x) rfl, _, rfl, rfl, rfl, sameBut_of_overwritten rfl⟩

end Sys2Proof.Machine
end

section
/-! PROOFS of the exception and host statements (spec/60_exceptions.md): the causes of a fatal error (R102, R105), the
halted engine along a run (R104), each transaction of the host by what it writes (R109 to R116), the memory Reset leaves
(R120), and from these the invariant along every transaction (R112). -/

namespace Sys2Proof.Machine

/-! ### The transactions, by what they write (R109, R112 to R114) -/

/-- A Tick writes nothing but the timers. -/
theorem State.ticked_eq (s : State) : s.ticked = { s with DT := s.ticked.DT, ST := s.ticked.ST } := by
  unfold State.ticked
  split <;> rfl

/-- An accepted pixel query changes nothing (R114). -/
theorem transact_pixel {p : Params} {px py : Nat} {s t : State} (h : transact p (.pixel px py) s = .next t) :
    t = s := by
  simp only [transact] at h
  split at h
  · exact (Host.Outcome.next.inj h).symm
  · cases h

/-- Reset is accepted with a ROM that fits (R107). -/
theorem resetWith_accepted {p : Params} {rom : List Byte} {s t : State} (h : resetWith p rom s = .next t) :
    rom.length ≤ Config.romMax ∧ t = s.resetTo p rom := by
  unfold resetWith at h
  split at h
  · exact ⟨‹_›, (Host.Outcome.next.inj h).symm⟩
  · cases h

/-- Everything an accepted transaction can do: Reset, Step, or a change of no more than the key latch and the timers. -/
theorem transact_cases {p : Params} {tr : Transaction} {s t : State} (h : transact p tr s = .next t) :
    (∃ rom, rom.length ≤ Config.romMax ∧ t = s.resetTo p rom) ∨ (∃ rnd, stepWith p rnd s = .next t) ∨
    t = { s with key := t.key, DT := t.DT, ST := t.ST } := by
  cases tr with
  | reset rom => exact .inl ⟨rom, resetWith_accepted h⟩
  | step rnd => exact .inr (.inl ⟨rnd, h⟩)
  | setKey k =>
    have e := setKey_writes_key h
    rw [e]
    exact .inr (.inr rfl)
  | tick =>
    obtain rfl := Host.Outcome.next.inj h
    rw [s.ticked_eq]
    exact .inr (.inr rfl)
  | pixel px py =>
    obtain rfl := transact_pixel h
    exact .inr (.inr rfl)
  | soundActive | readState =>
    obtain rfl := Host.Outcome.next.inj h
    exact .inr (.inr rfl)

/-! ### The memory Reset leaves (R26, R27, R120) -/

/-- Memory after Reset's first writes: the font that an unlisted byte reads as (notes/assumptions/4.md) is cleared. -/
def zeroedMemory : Memory := Memory.writeFrom [] Params.hardware.fontBase (List.replicate fontData.length 0)

theorem resetMemory_eq (p : Params) (rom : List Byte) :
    resetMemory p rom = (zeroedMemory.writeFrom p.fontBase fontData).writeFrom Config.romBase rom := rfl

theorem zeroedMemory_wf : zeroedMemory.wf := Memory.writeFrom_wf Memory.wf_nil _ _ (by decide)

theorem length_fontData : fontData.length = 80 := rfl

/-- The cleared memory reads 0 everywhere. -/
theorem read_zeroedMemory (a : Nat) : zeroedMemory.read a = 0 := by
  have hbase : Params.hardware.fontBase = 0 := rfl
  rw [zeroedMemory, hbase, Memory.read_writeFrom _ _ _ Memory.wf_nil (by decide), if_pos (Nat.zero_le a)]
  by_cases ha : a < fontData.length
  · rw [List.getD_eq_getElem _ _ (by simpa using ha), List.getElem_replicate]
  · rw [List.getD_eq_default _ _ (by simpa using ha), Memory.read_nil]
    exact List.getD_eq_default _ _ (Nat.not_lt.mp ha)

section ResetMemory

variable {p : Params} {rom : List Byte} (hp : p.legal) (hrom : rom.length ≤ Config.romMax)

include hp

theorem fontMemory_wf : (zeroedMemory.writeFrom p.fontBase fontData).wf :=
  Memory.writeFrom_wf zeroedMemory_wf _ _ (by rw [length_fontData]; exact hp.trans (by decide))

include hrom

theorem resetMemory_wf : (resetMemory p rom).wf :=
  Memory.writeFrom_wf (fontMemory_wf hp) _ _ (Nat.add_le_add_left hrom _)

/-- Reset leaves the ROM from 0x200 on, the font at FONT_BASE, and 0 elsewhere. -/
theorem read_resetMemory (a : Nat) : (resetMemory p rom).read a =
    if Config.romBase ≤ a then rom.getD (a - Config.romBase) 0
    else if p.fontBase ≤ a then fontData.getD (a - p.fontBase) 0 else 0 := by
  have hfont : p.fontBase + fontData.length ≤ Config.memSize := hp.trans (by decide)
  rw [resetMemory_eq, Memory.read_writeFrom _ _ _ (fontMemory_wf hp) (Nat.add_le_add_left hrom _),
    Memory.read_writeFrom _ _ _ zeroedMemory_wf hfont, read_zeroedMemory]
  split
  · have hpast : fontData.length ≤ a - p.fontBase := by
      rw [length_fontData]
      unfold Params.legal at hp
      omega
    rw [List.getD_eq_default _ _ hpast, ite_self]
  · rfl

end ResetMemory

/-! ### Every transaction keeps the invariant (R112) -/

/-- The invariant speaks of memory, pc, status and error record only. -/
theorem Invariant.congr {s t : State} (hi : Invariant s) (hmem : t.mem = s.mem) (hpc : t.pc = s.pc)
    (hstatus : t.status = s.status) (herr : t.err = s.err) : Invariant t := by
  obtain ⟨hwf, hlow, hagree, hwait⟩ := hi
  have hfetch : fetch Params.hardware t = fetch Params.hardware s := by unfold fetch; rw [hpc, hmem]
  refine ⟨hmem ▸ hwf, ?_, ?_, ?_⟩
  · unfold LowMemoryIntact
    rwa [hmem]
  · unfold ErrorMatchesStatus
    rwa [hstatus, herr]
  · unfold WaitsAtWaitForKey
    rwa [hstatus, hfetch]

/-- Reset leaves the invariant, whatever the state it begins in and the ROM it loads. -/
theorem invariant_resetTo (s : State) {rom : List Byte} (hrom : rom.length ≤ Config.romMax) :
    Invariant (s.resetTo Params.hardware rom) where
  memory := resetMemory_wf (by decide) hrom
  lowMemory := fun a ha => (read_resetMemory (by decide) hrom a).trans (if_neg (Nat.not_le.mpr ha))
  errorRecord := iff_of_false nofun (not_not.mpr rfl)
  waiting := nofun

/-- The settling looks at the status alone, not at the registers and the counter of draws. -/
theorem settle_redrawn (i : Instr) (t : State) (W : Vector Byte 16) (n : Nat) :
    settle i { t with V := W, draws := n } = { settle i t with V := W, draws := n } := by
  unfold settle
  split <;> rfl

/-- An execution at a given draw is the model's own, but for the register that CXNN gives the draw, and the counter. -/
theorem exec_of_execWith_hardware {rnd : Byte} {i : Instr} {s t : State}
    (h : execWith Params.hardware rnd i s = .next t) :
    ∃ u, exec i s = .next u ∧ t = { u with V := t.V, draws := t.draws } := by
  cases i with
  | rnd x nn =>
    obtain rfl := Host.Outcome.next.inj h
    exact ⟨_, rfl, rfl⟩
  | _ => exact ⟨t, h, rfl⟩

/-- So is a Step(rnd) of this hardware. -/
theorem step_of_stepWith_hardware {rnd : Byte} {s t : State} (h : stepWith Params.hardware rnd s = .next t) :
    ∃ u, step s = .next u ∧ t = { u with V := t.V, draws := t.draws } := by
  obtain ⟨hh, rfl⟩ | ⟨hs, r, hf, rfl⟩ | ⟨hs, op, e, hf, hd, rfl⟩ | ⟨hs, op, i, v, hf, hd, hx, rfl⟩ := runStep_cases h
  · exact ⟨_, runStep_halted _ _ hh, rfl⟩
  · exact ⟨_, runStep_fetch_error _ hs hf, rfl⟩
  · exact ⟨_, runStep_decode_error _ hs hf hd, rfl⟩
  · obtain ⟨u, hu, hv⟩ := exec_of_execWith_hardware hx
    refine ⟨_, runStep_execute hs hf hd hu, ?_⟩
    rw [hv, settle_redrawn]

theorem stepWith_keeps_invariant {rnd : Byte} {s t : State} (hi : Invariant s)
    (h : stepWith Params.hardware rnd s = .next t) : Invariant t := by
  obtain ⟨u, hu, e⟩ := step_of_stepWith_hardware h
  rw [e]
  exact (stepKeepsTheInvariant s u hi hu).congr rfl rfl rfl rfl

/-- Settles O17: Reset leaves the invariant, Step(rnd) keeps it as the model's step does, and no other transaction
writes a field that it speaks of. -/
theorem transactionsKeepTheInvariant : Obligations.TransactionsKeepTheInvariant := by
  intro tr s t hi h
  obtain ⟨rom, hrom, rfl⟩ | ⟨rnd, hstep⟩ | e := transact_cases h
  · exact invariant_resetTo s hrom
  · exact stepWith_keeps_invariant hi hstep
  · rw [e]
    exact hi.congr rfl rfl rfl rfl

/-! ### The causes of a fatal error (R102, R105) -/

/-- A range that does not resolve fails at the smallest offset beyond 0xFFF (R105). -/
theorem resolveRange_error_offset {p : Params} {base n : Nat} {r : Raised} (h : resolveRange p base n = .error r) :
    ∃ k, k < n ∧ 0x1000 ≤ base + k ∧ (∀ j, j < k → base + j < 0x1000) ∧
      r = ⟨.addressOutOfRange, some (base + k)⟩ := by
  obtain ⟨_, hout, hn, rfl⟩ := resolveRange_error h
  have hk : max base 0x1000 = base + (0x1000 - base) := by omega
  exact ⟨0x1000 - base, by omega, by omega, fun j hj => by omega, by rw [hk]⟩

/-- A data write of this hardware fails at its smallest offset beyond 0xFFF, or else, all of it being inside memory, at
its first address, which is below 0x200 (R105). -/
theorem writeTargets_hardware_error {base n : Nat} (hn : 0 < n) {r : Raised}
    (h : writeTargets Params.hardware base n = .error r) :
    resolveRange Params.hardware base n = .error r ∨ base < 0x200 ∧ r = ⟨.protectedWrite, some base⟩ := by
  by_cases hout : base + n ≤ 0x1000
  · by_cases hlow : base < 0x200
    · rw [writeTargets_protected rfl hlow hn hout] at h
      exact .inr ⟨hlow, (Except.error.inj h).symm⟩
    · rw [writeTargets_inRange _ (Nat.not_lt.mp hlow) hout] at h
      cases h
  · rw [writeTargets_outOfRange rfl (Nat.not_le.mp hout) hn] at h
    exact .inl ((resolveRange_fault rfl (Nat.not_le.mp hout) hn).trans h)

/-- A halting execution of the model itself failed one of the checks too, as `execWith_halted` says of execWith: CXNN, where
the two differ, never raises. -/
theorem exec_fails {i : Instr} {s t : State} (hs : s.status ≠ .halted) (h : exec i s = .next t)
    (ht : t.status = .halted) : ∃ r, Fails Params.hardware s i r ∧ t = s.raise (some (encode i)) r := by
  obtain ⟨x, nn, rfl, rfl⟩ | hw := exec_cases h
  · exact absurd ht hs
  · exact execWith_halted hs (hw 0) ht

/-- The k-th byte from I on is one that the instruction reads or writes (R90 to R92, R94). -/
def Accesses (i : Instr) (k : Nat) : Prop :=
  (∃ x y n, i = .drw x y n ∧ k < n.val) ∨ (∃ x, i = .ldB x ∧ k < 3) ∨
    (∃ x, (i = .store x ∨ i = .load x) ∧ k ≤ x.val)

/-- The four causes of an execution, each with its condition and its offending address (R102, R105). -/
inductive Cause (s : State) : Instr → Raised → Prop where
  | overflow {nnn} : s.sp.val = 16 → Cause s (.call nnn) ⟨.stackOverflow, none⟩
  | underflow : s.sp.val = 0 → Cause s .ret ⟨.stackUnderflow, none⟩
  | outOfRange {i k} : Accesses i k → 0x1000 ≤ s.I.toNat + k → (∀ j, j < k → s.I.toNat + j < 0x1000) →
      Cause s i ⟨.addressOutOfRange, some (s.I.toNat + k)⟩
  | protectedWrite {i x} : i = .ldB x ∨ i = .store x → s.I.toNat < 0x200 →
      Cause s i ⟨.protectedWrite, some s.I.toNat⟩

theorem Cause.of_resolveRange_error {s : State} {i : Instr} {n : Nat} {r : Raised}
    (h : resolveRange Params.hardware s.I.toNat n = .error r) (hi : ∀ k, k < n → Accesses i k) : Cause s i r := by
  obtain ⟨k, hk, hout, hfirst, rfl⟩ := resolveRange_error_offset h
  exact .outOfRange (hi k hk) hout hfirst

theorem Cause.of_writeTargets_error {s : State} {i : Instr} {x : Reg} {n : Nat} {r : Raised} (hn : 0 < n)
    (h : writeTargets Params.hardware s.I.toNat n = .error r) (hi : ∀ k, k < n → Accesses i k)
    (hx : i = .ldB x ∨ i = .store x) : Cause s i r := by
  obtain hr | ⟨hlow, rfl⟩ := writeTargets_hardware_error hn h
  · exact .of_resolveRange_error hr hi
  · exact .protectedWrite hx hlow

/-- A check of this hardware fails for the cause listed for its instruction. -/
theorem Fails.cause {s : State} {i : Instr} {r : Raised} (h : Fails Params.hardware s i r) : Cause s i r := by
  cases h with
  | underflow hsp => exact .underflow hsp
  | overflow hsp => exact .overflow (Nat.le_antisymm (Nat.le_of_lt_succ s.sp.isLt) hsp)
  | sprite h => exact .of_resolveRange_error h fun k hk => .inl ⟨_, _, _, rfl, hk⟩
  | digits h => exact .of_writeTargets_error (by decide) h (fun k hk => .inr (.inl ⟨_, rfl, hk⟩)) (.inl rfl)
  | blockStore h =>
    exact .of_writeTargets_error (Nat.succ_pos _) h
      (fun k hk => .inr (.inr ⟨_, .inl rfl, Nat.le_of_lt_succ hk⟩)) (.inr rfl)
  | blockLoad h =>
    exact .of_resolveRange_error h fun k hk => .inr (.inr ⟨_, .inr rfl, Nat.le_of_lt_succ hk⟩)

/-- Settles O11: the fetch fails, the opcode is undefined, or the execution raised for one of its four causes; the
opcode it records is the one fetched, of which the instruction is the decoding. -/
theorem fatalErrorHasOneOfTheFiveCauses : Obligations.FatalErrorHasOneOfTheFiveCauses := by
  refine ⟨⟨rfl, rfl, rfl, rfl, rfl⟩, fun s t e hs h ht he => ?_⟩
  by_cases hpc : 0xFFE < s.pc.toNat
  · obtain rfl := Host.Outcome.next.inj ((runStep_fetch_error _ hs (fetch_outOfRange rfl hpc)).symm.trans h)
    exact .inl ⟨hpc, (Option.some.inj he).symm⟩
  have hpc := Nat.not_lt.mp hpc
  have hfetch := fetch_inRange Params.hardware hpc
  refine .inr ⟨_, hpc, rfl, ?_⟩
  generalize opcodeOfBytes (s.mem.read s.pc.toNat) (s.mem.read (s.pc.toNat + 1)) = op at hfetch ⊢
  cases hd : decode op with
  | error d =>
    obtain rfl := Host.Outcome.next.inj ((runStep_decode_error _ hs hfetch hd).symm.trans h)
    have hu : d = .undefined op := Reading.eq_undefined (hd ▸ decode_reading op)
    exact .inl ⟨congrArg Except.error hu, (Option.some.inj he).symm⟩
  | ok i =>
    obtain ⟨u, hu⟩ := exec_answers i s
    obtain rfl := Host.Outcome.next.inj ((runStep_execute hs hfetch hd hu).symm.trans h)
    obtain ⟨heq, hhalt⟩ := settle_of_halted ht
    obtain ⟨r, hfails, rfl⟩ := exec_fails hs hu hhalt
    obtain ⟨_, hop⟩ := encodeOfDecodeIsTheOpcode op i hd
    rw [heq, hop] at he
    obtain rfl := Option.some.inj he
    cases hfails.cause with
    | overflow hsp => exact .inr (.inl ⟨_, rfl, hsp, rfl⟩)
    | underflow hsp => exact .inr (.inr (.inl ⟨rfl, hsp, rfl⟩))
    | outOfRange hi hout hfirst => exact .inr (.inr (.inr (.inl ⟨_, _, rfl, hi, hout, hfirst, rfl⟩)))
    | protectedWrite hi hlow => exact .inr (.inr (.inr (.inr ⟨_, _, rfl, hi, hlow, rfl⟩)))

/-! ### A run from Halted (R104) -/

/-- A run that answers a state made its first transaction, and then the rest of the run. -/
theorem runTransactions_cons {p : Params} {tr : Transaction} {ts : List Transaction} {s t : State}
    (h : runTransactions p (tr :: ts) s = .next t) :
    ∃ u, transact p tr s = .next u ∧ runTransactions p ts u = .next t := by
  rw [runTransactions] at h
  split at h
  · exact ⟨_, ‹_›, h⟩
  · cases h
  · cases h

/-- Settles O18, by induction on the run: each transaction leaves all but the latch, and so the engine halted. -/
theorem firstErrorStaysUntilReset : Obligations.FirstErrorStaysUntilReset := by
  intro p ts
  induction ts with
  | nil =>
    intro s t _ _ h
    obtain rfl := Host.Outcome.next.inj h
    rfl
  | cons tr ts ih =>
    intro s t hs hno h
    obtain ⟨u, hu, hrest⟩ := runTransactions_cons h
    obtain ⟨rom, rfl⟩ | e := transact_halted hs hu
    · exact absurd List.mem_cons_self (hno rom)
    · have huhalted : u.status = .halted := (congrArg State.status e).trans hs
      have ht := ih u t huhalted (fun rom hm => hno rom (List.mem_cons_of_mem _ hm)) hrest
      rw [e] at ht
      exact ht

/-! ### Tick (R109) -/

theorem toNat_countDown (v : Byte) : (countDown v).toNat = v.toNat - 1 := by
  unfold countDown
  split
  · exact BitVec.toNat_sub_of_le (by bv_omega)
  · omega

theorem State.ticked_running {s : State} (hs : s.status ≠ .halted) :
    s.ticked = { s with DT := countDown s.DT, ST := countDown s.ST } := if_neg hs

/-- Settles O57: the two timers count down where the engine is not halted. -/
theorem tickCountsBothTimersDown : Obligations.TickCountsBothTimersDown := fun _ _ =>
  ⟨fun hs => congrArg Host.Outcome.next (State.ticked_halted hs),
    fun hs => ⟨_, congrArg Host.Outcome.next (State.ticked_running hs), toNat_countDown _, toNat_countDown _,
      sameBut_of_overwritten rfl⟩⟩

/-! ### SetKey and the queries (R110, R113, R114, R116) -/

theorem transact_pixel_onScreen (p : Params) (s : State) {px py : Nat} (hx : px < 64) (hy : py < 32) :
    transact p (.pixel px py) s = .next s := by
  simp only [transact, State.queryPixel, if_pos (And.intro hx hy)]

theorem transact_pixel_offScreen (p : Params) (s : State) {px py : Nat} (h : 64 ≤ px ∨ 32 ≤ py) :
    transact p (.pixel px py) s = .refused (.pixelOutOfRange px py) := by
  have hoff : ¬ (px < Config.fbWidth ∧ py < Config.fbHeight) := by simp only [Config.fbWidth, Config.fbHeight]; omega
  simp only [transact, State.queryPixel, if_neg hoff]

theorem State.soundActive_iff (s : State) : s.soundActive = true ↔ s.ST.toNat ≠ 0 := by
  rw [State.soundActive, bne_iff_ne, Ne, Ne, ← BitVec.toNat_inj]
  rfl

/-- Settles O60: a code that fits the latch is written and any other refused, and a query answers or is refused. -/
theorem keyAndQueriesOfTheHost : Obligations.KeyAndQueriesOfTheHost := fun p s =>
  ⟨rfl, fun k => dif_pos k.isLt, fun _ hc => dif_neg (Nat.not_lt.mpr hc),
    fun _ _ hx hy => ⟨transact_pixel_onScreen p s hx hy, rfl⟩, fun _ _ => transact_pixel_offScreen p s,
    rfl, (iff_of_eq (Answer.bit.injEq ..)).trans s.soundActive_iff, rfl, rfl⟩

end Sys2Proof.Machine
end

section
/-! PROOFS of the reset and hazard statements (spec/70_reset_and_hazards.md): the state and the memory Reset and power-up
leave (R120, R121), the fixed points of Step, and a run that ends awaiting a key (R126). -/

namespace Sys2Proof.Machine

/-! ### Reset (R120) -/

/-- The font is its glyphs one after another, five rows each (R27). -/
theorem getD_fontData : ∀ d < 16, ∀ r < 5, fontData.getD (5 * d + r) 0 = (fontGlyphs.getD d []).getD r 0 := by decide

section ResetMemory

variable {p : Params} {rom : List Byte} (hp : p.legal) (hrom : rom.length ≤ Config.romMax)

include hp hrom

theorem read_resetMemory_font {d r : Nat} (hd : d < 16) (hr : r < 5) :
    (resetMemory p rom).read (p.fontBase + 5 * d + r) = (fontGlyphs.getD d []).getD r 0 := by
  have hlow : p.fontBase + 80 ≤ 0x200 := hp
  rw [read_resetMemory hp hrom, if_neg (by simp only [Config.romBase]; omega), if_pos (by omega),
    show p.fontBase + 5 * d + r - p.fontBase = 5 * d + r by omega, getD_fontData d hd r hr]

theorem read_resetMemory_rom {k : Nat} (hk : k < rom.length) : (resetMemory p rom).read (0x200 + k) = rom[k] := by
  rw [read_resetMemory hp hrom, if_pos (Nat.le_add_right _ _), Nat.add_sub_cancel_left, List.getD_eq_getElem]

theorem read_resetMemory_elsewhere {a : Nat} (hfont : ¬ (p.fontBase ≤ a ∧ a < p.fontBase + 80))
    (hout : ¬ (0x200 ≤ a ∧ a < 0x200 + rom.length)) : (resetMemory p rom).read a = 0 := by
  rw [read_resetMemory hp hrom]
  split
  case isTrue h => exact List.getD_eq_default _ _ (by simp only [Config.romBase] at h ⊢; omega)
  split
  case isTrue h => exact List.getD_eq_default _ _ (by rw [length_fontData]; omega)
  case isFalse => rfl

end ResetMemory

/-- Settles O58: the fields are those of State.reset but for the latch, and memory reads as Reset's writes left it. -/
theorem resetRecreatesTheState : Obligations.ResetRecreatesTheState := by
  intro p rom s hp
  refine ⟨fun hrom => ⟨s.resetTo p rom, if_pos hrom, fun r => Vector.getElem_replicate r.isLt, rfl, rfl, rfl,
    fun j hj => Vector.getElem?_replicate_of_lt hj, rfl, rfl, Framebuffer.pixel_blank, rfl, rfl, rfl,
    fun d r hd hr => read_resetMemory_font hp hrom hd hr, fun k hk => read_resetMemory_rom hp hrom hk,
    fun a _ hfont hout => read_resetMemory_elsewhere hp hrom hfont hout⟩, fun hrom => if_neg (Nat.not_le.mpr hrom)⟩

/-! ### Power-up (R121) -/

/-- The canonical form lists nothing where every byte reads as the reset contents give. -/
theorem Memory.eq_nil_of_read_eq {m : Memory} (hm : m.wf) (h : ∀ a, m.read a = Memory.resetByte a) : m = [] := by
  obtain ⟨_, hlisted⟩ := hm
  cases m with
  | nil => rfl
  | cons c m =>
    obtain ⟨_, hne⟩ := hlisted c List.mem_cons_self
    have hc : Memory.read (c :: m) c.1 = c.2 := if_pos rfl
    exact absurd (hc.symm.trans (h c.1)) hne

/-- Reset with an empty ROM leaves this hardware's reset contents. -/
theorem resetMemory_hardware_nil : resetMemory Params.hardware [] = [] := by
  have hp : Params.hardware.legal := by decide
  refine Memory.eq_nil_of_read_eq (resetMemory_wf hp (Nat.zero_le _)) fun a => ?_
  rw [read_resetMemory hp (Nat.zero_le _)]
  split
  case isTrue h =>
    have hpast : fontData.length ≤ a := le_trans (by decide) h
    exact (List.getD_eq_default _ _ hpast).symm
  case isFalse => rfl

/-- Settles O59: the empty ROM is accepted and leaves the memory of State.reset; Reset does not touch the latch. -/
theorem powerUpLeavesTheResetState : Obligations.PowerUpLeavesTheResetState := by
  intro latch
  have hfits : ([] : List Byte).length ≤ Config.romMax := by decide
  rw [powerUp, resetWith, if_pos hfits, State.resetTo, resetMemory_hardware_nil]
  rfl

/-! ### An instruction that leaves the state it began in (R61, R64, R70) -/

/-- The decoders of the two values of `SYS_POLICY` differ in SYS nnn alone (R54). -/
theorem decodeWith_of_decode (policy : SysPolicy) {op : Word} {i : Instr} (hi : ∀ nnn, i ≠ .sys nnn)
    (h : decode op = .ok i) : decodeWith policy op = .ok i := by
  unfold decode decodeWith at h
  unfold decodeWith
  generalize opClass op = c at h ⊢
  split at h
  case h_1 =>
    unfold decodeClass0 at h ⊢
    split_ifs at h ⊢
    · exact h
    · exact h
    · exact absurd (Except.ok.inj h).symm (hi _)
  all_goals exact h

/-- In `s` the instruction waits on, or jumps to itself: a Step on it leaves `s`. -/
inductive Idles (s : State) : Instr → Prop where
  | wait {x : Reg} (hs : s.status = .awaitingKey) (hk : s.key = none) : Idles s (.ldVxK x)
  | jump {nnn : Addr12} (hs : s.status = .running) (hpc : nnn.toNat = s.pc.toNat) : Idles s (.jp nnn)
  | indexedJump {nnn : Addr12} (hs : s.status = .running) (hpc : nnn.toNat + (s.getV 0).toNat = s.pc.toNat) :
      Idles s (.jpV0 nnn)

theorem idles_iff {s : State} {i : Instr} :
    Idles s i ↔ (s.status = .awaitingKey ∧ s.key = none ∧ ∃ x, i = .ldVxK x) ∨
      (s.status = .running ∧ ∃ nnn : Addr12, (i = .jp nnn ∧ nnn.toNat = s.pc.toNat) ∨
        (i = .jpV0 nnn ∧ nnn.toNat + (s.getV 0).toNat = s.pc.toNat)) := by
  constructor
  · rintro (⟨hs, hk⟩ | ⟨hs, hpc⟩ | ⟨hs, hpc⟩)
    · exact .inl ⟨hs, hk, _, rfl⟩
    · exact .inr ⟨hs, _, .inl ⟨rfl, hpc⟩⟩
    · exact .inr ⟨hs, _, .inr ⟨rfl, hpc⟩⟩
  · rintro (⟨hs, hk, x, rfl⟩ | ⟨hs, nnn, ⟨rfl, hpc⟩ | ⟨rfl, hpc⟩⟩)
    · exact .wait hs hk
    · exact .jump hs hpc
    · exact .indexedJump hs hpc

section Idles

variable {s : State} {i : Instr} (h : Idles s i)

include h

theorem Idles.not_halted : s.status ≠ .halted := by
  cases h with
  | wait hs | jump hs | indexedJump hs => rw [hs]; nofun

theorem Idles.ne_sys (nnn : Addr12) : i ≠ .sys nnn := by
  rintro rfl
  cases h

theorem Idles.exec_eq : exec i s = .next s := by
  cases h with
  | wait hs hk => exact (execLdVxK_noKey _ hk).trans (by rw [← hs])
  | jump hs hpc =>
    have hto : zext16 _ = s.pc := BitVec.eq_of_toNat_eq ((toNat_zext16 _).trans hpc)
    exact congrArg (fun w => Host.Outcome.next { s with pc := w }) hto
  | indexedJump hs hpc =>
    have hto := BitVec.eq_of_toNat_eq ((toNat_jumpV0 _ _).trans hpc)
    exact congrArg (fun w => Host.Outcome.next { s with pc := w }) hto

/-- No parameter and no draw has a part in it. -/
theorem Idles.execWith_eq (p : Params) (rnd : Byte) : execWith p rnd i s = .next s := by
  have hexec := h.exec_eq
  cases h with
  | wait | jump | indexedJump => exact hexec

theorem Idles.settle_eq : settle i s = s := by
  cases h with
  | wait => exact settle_waitForKey _ s
  | jump hs | indexedJump hs => rw [settle_running (by rw [hs]; nofun) (fun _ => Instr.noConfusion), ← hs]

end Idles

/-- An instruction that completes moves pc, or pops or pushes the stack, unless it is a jump or an FX0A with no key
(R59). -/
theorem exec_keeps_pc_and_sp {s t : State} {i : Instr} (h : exec i s = .next t) (ht : t.status ≠ .halted)
    (hpc : pcAfter i s = s.pc) (hsp : t.sp = s.sp) :
    (∃ nnn, i = .jp nnn) ∨ (∃ nnn, i = .jpV0 nnn) ∨ ∃ x, i = .ldVxK x ∧ s.key = none := by
  have two : s.pc + 2 ≠ s.pc := by bv_omega
  have four : s.pc + 4 ≠ s.pc := by bv_omega
  cases i with
  | jp nnn => exact .inl ⟨nnn, rfl⟩
  | jpV0 nnn => exact .inr (.inl ⟨nnn, rfl⟩)
  | ldVxK x => exact .inr (.inr ⟨x, rfl, of_not_not fun hk => two ((if_neg hk).symm.trans hpc)⟩)
  | ret =>
    obtain ⟨hpos, rfl⟩ | ⟨_, rfl⟩ := execRet_cases h
    · have hval : s.sp.val - 1 = s.sp.val := congrArg Fin.val hsp
      omega
    · exact absurd rfl ht
  | call nnn =>
    obtain ⟨_, rfl⟩ | ⟨_, rfl⟩ := callWith_cases h
    · exact absurd (congrArg Fin.val hsp) (Nat.succ_ne_self _)
    · exact absurd rfl ht
  | seImm | sneImm | seReg | sneReg | skp | sknp =>
    dsimp only [pcAfter] at hpc
    split at hpc
    · contradiction
    · contradiction
  | _ => exact absurd hpc two

/-- The instruction of a Step that leaves a state that is not halted idles. -/
theorem idles_of_settle_eq {s u : State} {i : Instr} (hs : s.status ≠ .halted) (hx : exec i s = .next u)
    (h : settle i u = s) : Idles s i := by
  have hu : u.status ≠ .halted := fun hu => hs (h ▸ (settle_halted i hu).symm ▸ hu)
  have hpc : pcAfter i s = s.pc := by rw [← exec_pc hx hu, ← h, settle_eq]
  have hsp : u.sp = s.sp := by rw [← h, settle_eq]
  obtain ⟨nnn, rfl⟩ | ⟨nnn, rfl⟩ | ⟨x, rfl, hk⟩ := exec_keeps_pc_and_sp hx hu hpc hsp
  · rw [settle_running hu (fun _ => Instr.noConfusion)] at h
    exact .jump (congrArg State.status h).symm ((toNat_zext16 nnn).symm.trans (congrArg BitVec.toNat hpc))
  · rw [settle_running hu (fun _ => Instr.noConfusion)] at h
    exact .indexedJump (congrArg State.status h).symm ((toNat_jumpV0 nnn _).symm.trans (congrArg BitVec.toNat hpc))
  · obtain rfl := Host.Outcome.next.inj ((execLdVxK_noKey x hk).symm.trans hx)
    exact .wait (congrArg State.status h).symm hk

/-! ### The fixed points of Step (R126) -/

/-- A fetch of this hardware is one inside memory. -/
theorem fetch_hardware_ok {s : State} {op : Word} (h : fetch Params.hardware s = .ok op) :
    s.pc.toNat ≤ 0xFFE ∧ op = opcodeOfBytes (s.mem.read s.pc.toNat) (s.mem.read (s.pc.toNat + 1)) := by
  by_cases hpc : s.pc.toNat ≤ 0xFFE
  · exact ⟨hpc, Except.ok.inj (h.symm.trans (fetch_inRange _ hpc))⟩
  · rw [fetch_outOfRange rfl (Nat.not_le.mp hpc)] at h
    cases h

/-- The engine is halted, or the instruction at its pc idles. -/
def Rests (s : State) : Prop :=
  s.status = .halted ∨ ∃ i, s.pc.toNat ≤ 0xFFE ∧
    decode (opcodeOfBytes (s.mem.read s.pc.toNat) (s.mem.read (s.pc.toNat + 1))) = .ok i ∧ Idles s i

theorem Rests.runStep_eq {s : State} (h : Rests s) (p : Params) {f : Instr → State → Result}
    (hf : ∀ i, Idles s i → f i s = .next s) : runStep p f s = .next s := by
  obtain hs | ⟨i, hpc, hd, hi⟩ := h
  · exact runStep_halted p f hs
  · rw [runStep_execute hi.not_halted (fetch_inRange p hpc) (decodeWith_of_decode _ hi.ne_sys hd) (hf i hi),
      hi.settle_eq]

theorem Rests.stepWith_eq {s : State} (h : Rests s) (p : Params) (rnd : Byte) : stepWith p rnd s = .next s :=
  h.runStep_eq p fun _ hi => hi.execWith_eq p rnd

/-- A Step that leaves the state it began in did not raise, and its instruction idles. -/
theorem endsAtFixedPoint_iff {s : State} : EndsAtFixedPoint s ↔ Rests s := by
  refine ⟨fun h => ?_, fun h => h.runStep_eq _ fun _ hi => hi.exec_eq⟩
  obtain ⟨hs, _⟩ | ⟨hs, r, _, e⟩ | ⟨hs, op, _, _, _, e⟩ | ⟨hs, op, i, u, hf, hd, hx, e⟩ := runStep_cases h
  · exact .inl hs
  · exact absurd (congrArg State.status e) hs
  · exact absurd (congrArg State.status e) hs
  · obtain ⟨hpc, rfl⟩ := fetch_hardware_ok hf
    exact .inr ⟨i, hpc, hd, idles_of_settle_eq hs hx e.symm⟩

/-- Any number of Steps leaves a fixed point. -/
theorem core_run_fixedPoint {s : State} (h : EndsAtFixedPoint s) (k : Nat) : Sys2Proof.core.run k s = .next s := by
  have hstep : Sys2Proof.core.step s = .next s := h
  induction k with
  | zero => rfl
  | succ k ih => simp only [Host.Core.run, hstep, ih]

/-- Settles O19: a Step leaves the state exactly if it rests, and a state that rests does so under every parameter. -/
theorem fixedPointsOfStepAreThese : Obligations.FixedPointsOfStepAreThese := by
  intro s
  refine ⟨?_, fun h => ⟨(endsAtFixedPoint_iff.mp h).stepWith_eq, core_run_fixedPoint h⟩⟩
  rw [endsAtFixedPoint_iff, Rests]
  simp only [idles_iff]

/-! ### A run that ends awaiting a key (R126) -/

theorem rests_of_awaitingKey {s : State} (hw : WaitsAtWaitForKey s) (hs : s.status = .awaitingKey)
    (hk : s.key = none) : Rests s := by
  obtain ⟨op, x, hf, hd⟩ := hw hs
  obtain ⟨hpc, rfl⟩ := fetch_hardware_ok hf
  exact .inr ⟨_, hpc, hd, .wait hs hk⟩

/-- With no key and no Reset, a transaction changes no more of a waiting engine than the timers (R109, R118). -/
theorem transact_awaitingKey {tr : Transaction} {s t : State} (hrest : Rests s) (hk : s.key = none)
    (hnokey : ∀ k, tr ≠ .setKey (some k)) (hnoreset : ∀ rom, tr ≠ .reset rom)
    (h : transact Params.hardware tr s = .next t) : t = { s with DT := t.DT, ST := t.ST } := by
  cases tr with
  | reset rom => exact absurd rfl (hnoreset rom)
  | setKey k =>
    cases k with
    | some k => exact absurd rfl (hnokey k)
    | none =>
      obtain rfl := Host.Outcome.next.inj h
      rw [← hk]
  | step rnd =>
    obtain rfl := Host.Outcome.next.inj ((hrest.stepWith_eq _ rnd).symm.trans h)
    rfl
  | tick =>
    obtain rfl := Host.Outcome.next.inj h
    exact s.ticked_eq
  | pixel px py =>
    obtain rfl := transact_pixel h
    rfl
  | soundActive | readState =>
    obtain rfl := Host.Outcome.next.inj h
    rfl

/-- So it is with the rest of the run: the wait does not depend on the timers, and goes on after each transaction. -/
theorem runTransactions_awaitingKey {later : List Transaction} : ∀ {s t : State}, WaitsAtWaitForKey s →
    EndsAwaitingKey s later → NoResetIn later → runTransactions Params.hardware later s = .next t →
    t = { s with DT := t.DT, ST := t.ST } := by
  induction later with
  | nil =>
    intro s t _ _ _ h
    obtain rfl := Host.Outcome.next.inj h
    rfl
  | cons tr later ih =>
    rintro s t hw ⟨hs, hk, hnokey⟩ hnoreset h
    obtain ⟨u, hu, hrest⟩ := runTransactions_cons h
    have e := transact_awaitingKey (rests_of_awaitingKey hw hs hk) hk
      (fun k he => hnokey k (he ▸ List.mem_cons_self)) (fun rom he => hnoreset rom (he ▸ List.mem_cons_self)) hu
    have hends : EndsAwaitingKey u later := by
      rw [e]
      exact ⟨hs, hk, fun k hm => hnokey k (List.mem_cons_of_mem _ hm)⟩
    have ht := ih (by rw [e]; exact hw) hends (fun rom hm => hnoreset rom (List.mem_cons_of_mem _ hm)) hrest
    rw [e] at ht
    exact ht

/-- Settles O20: after the rest of the run only the timers may differ. -/
theorem runAwaitingKeyStaysThere : Obligations.RunAwaitingKeyStaysThere := fun _ _ _ hw hends hnoreset h =>
  sameBut_of_overwritten (runTransactions_awaitingKey hw hends hnoreset h)

end Sys2Proof.Machine
end
